-- ==== Sys2Proof/Word.lean ====
section
/-!
DEFINITION. The two word types of the core: 8-bit words of instruction memory and the 4-bit values of the accumulator,
the fields of an instruction and the words of data memory (spec/00_scope.md R4).
-/

namespace Sys2Proof

/-- An instruction word, a word of instruction memory, or an instruction address (`IM_WIDTH`, `PC_WIDTH` of R4). -/
abbrev Byte := BitVec 8

/-- A 4-bit value: `ACC`, an operation code, an operand, a word of data memory (R4). -/
abbrev Nibble := BitVec 4

end Sys2Proof
end

