-- ==== Sys2Proof/Syntax.lean ====
section
/-!
DEFINITION. The instructions: one constructor per row of spec/opcode_table.json, sixteen in all, each with its 4-bit
operand `k` (spec/30_encoding.md R60, R61). NOP and the unmapped codes carry the operand they ignore, so that no bit of a
word is lost.
-/

namespace Sys2Proof

/-- An instruction of the core, one constructor per operation code (R63, R64). -/
inductive Instr where
  /-- NOP, operation code `0x0`: the operand is ignored (R80). -/
  | nop (k : Nibble)
  /-- ADD `#k`, operation code `0x1` (R91). -/
  | add (k : Nibble)
  /-- SUB `#k`, operation code `0x2` (R92). -/
  | sub (k : Nibble)
  /-- JMP `k`, operation code `0x3`: an absolute target in 0 to 15 (R100). -/
  | jmp (k : Nibble)
  /-- Unmapped operation code `0x4`, executes as NOP (R81). -/
  | xnop4 (k : Nibble)
  /-- Unmapped operation code `0x5`, executes as NOP (R81). -/
  | xnop5 (k : Nibble)
  /-- Unmapped operation code `0x6`, executes as NOP (R81). -/
  | xnop6 (k : Nibble)
  /-- Unmapped operation code `0x7`, executes as NOP (R81). -/
  | xnop7 (k : Nibble)
  /-- Unmapped operation code `0x8`, executes as NOP (R81). -/
  | xnop8 (k : Nibble)
  /-- Unmapped operation code `0x9`, executes as NOP (R81). -/
  | xnop9 (k : Nibble)
  /-- Unmapped operation code `0xA`, executes as NOP (R81). -/
  | xnopA (k : Nibble)
  /-- Unmapped operation code `0xB`, executes as NOP (R81). -/
  | xnopB (k : Nibble)
  /-- Unmapped operation code `0xC`, executes as NOP (R81). -/
  | xnopC (k : Nibble)
  /-- Unmapped operation code `0xD`, executes as NOP (R81). -/
  | xnopD (k : Nibble)
  /-- Unmapped operation code `0xE`, executes as NOP (R81). -/
  | xnopE (k : Nibble)
  /-- Unmapped operation code `0xF`, executes as NOP (R81). -/
  | xnopF (k : Nibble)
  deriving DecidableEq, Repr

end Sys2Proof
end

