-- ==== Sys2Proof/Decode.lean ====
section
/-!
DEFINITION. Decode and encode. A word splits into the operation code (high nibble) and the operand (low nibble), and the
operation code alone selects the instruction (spec/30_encoding.md R60 to R65). Decoding a word is total: no encoding is
illegal (R64). Decoding a list of words refuses one thing, by name: a list that holds no word.
-/

namespace Sys2Proof

/-- `opc = w[7:4]`, the operation code (R60, R62). -/
def opcodeField (w : Byte) : Nibble := w.extractLsb' 4 4

/-- `k = w[3:0]`, the operand (R60, R62). -/
def operandField (w : Byte) : Nibble := w.extractLsb' 0 4

/-- The instruction of an operation code and an operand (R63; the rows of opcode_table.json). The last arm is reached by
operation code `0xF` alone. -/
def decodeFields (opc k : Nibble) : Instr :=
  match opc.toNat with
  | 0 => .nop k
  | 1 => .add k
  | 2 => .sub k
  | 3 => .jmp k
  | 4 => .xnop4 k
  | 5 => .xnop5 k
  | 6 => .xnop6 k
  | 7 => .xnop7 k
  | 8 => .xnop8 k
  | 9 => .xnop9 k
  | 10 => .xnopA k
  | 11 => .xnopB k
  | 12 => .xnopC k
  | 13 => .xnopD k
  | 14 => .xnopE k
  | _ => .xnopF k

/-- `Decode(w)` of R62: a pure function of the word. -/
def decode (w : Byte) : Instr := decodeFields (opcodeField w) (operandField w)

/-- Why a list of words is not decoded. -/
inductive DecodeRefusal where
  /-- The list holds no word; raised by `decodeBytes` alone, never by a step. Safe. -/
  | noWord
  deriving DecidableEq, Repr

/-- Decode the first instruction of a list of words and give the rest: every instruction is one word (R65). -/
def decodeBytes (ws : List Byte) : Except DecodeRefusal (Instr × List Byte) :=
  match ws with
  | [] => .error .noWord
  | w :: rest => .ok (decode w, rest)

/-- The words that spec/opcode_table.json numbers as the bits of `w`: 8 bits a word, the first word lowest; at least one. -/
def tableBytes (nbits w : Nat) : List Byte :=
  (List.range (max 1 ((nbits + 7) / 8))).map fun i => BitVec.ofNat 8 (w / 2 ^ (8 * i))

/-- The instruction the decoder reads from the bits `w`; none where they are not exactly one instruction word (log 16). -/
def decodeTableWord (nbits w : Nat) : Option Instr :=
  if w < 2 ^ 8 then
    match decodeBytes (tableBytes nbits w) with
    | .ok (i, []) => some i
    | _ => none
  else none

/-- The operation code of an instruction (R63; column `match` of opcode_table.json). -/
def Instr.opcode (i : Instr) : Nibble :=
  match i with
  | .nop _ => 0x0#4
  | .add _ => 0x1#4
  | .sub _ => 0x2#4
  | .jmp _ => 0x3#4
  | .xnop4 _ => 0x4#4
  | .xnop5 _ => 0x5#4
  | .xnop6 _ => 0x6#4
  | .xnop7 _ => 0x7#4
  | .xnop8 _ => 0x8#4
  | .xnop9 _ => 0x9#4
  | .xnopA _ => 0xA#4
  | .xnopB _ => 0xB#4
  | .xnopC _ => 0xC#4
  | .xnopD _ => 0xD#4
  | .xnopE _ => 0xE#4
  | .xnopF _ => 0xF#4

/-- The operand of an instruction (R61). -/
def Instr.operand (i : Instr) : Nibble :=
  match i with
  | .nop k => k
  | .add k => k
  | .sub k => k
  | .jmp k => k
  | .xnop4 k => k
  | .xnop5 k => k
  | .xnop6 k => k
  | .xnop7 k => k
  | .xnop8 k => k
  | .xnop9 k => k
  | .xnopA k => k
  | .xnopB k => k
  | .xnopC k => k
  | .xnopD k => k
  | .xnopE k => k
  | .xnopF k => k

/-- The word of an instruction: operation code in the high nibble, operand in the low one (R60). -/
def encode (i : Instr) : Byte := i.opcode ++ i.operand

end Sys2Proof
end

