-- ==== Sys2Proof/Config.lean ====
section
/-!
DEFINITION. What is fixed for the machine. The parameters of spec/00_scope.md R4 have the values the spec states; the four
parameters it leaves OPEN (spec/92_eei_decisions.md D1, D9, D10) are opaque, above the lower bounds it gives.
-/

namespace Sys2Proof.Config

/-- `IM_WORDS`: the capacity of instruction memory (R4). -/
@[simp] def imWords : Nat := 256

/-- `DM_WORDS`: the capacity of data memory (R4). -/
@[simp] def dmWords : Nat := 64

/-- `GUARD_PC`: a step that begins at or above this `PC` halts without fetching (R4, R68). -/
@[simp] def guardPc : Nat := 255

/-- `DM_INSPECT_BASE`: the inspect address of data word 0 (R4, R47). -/
@[simp] def dmInspectBase : Nat := 256

/-- `INSPECT_LIMIT`: the first inspect address outside both regions (R4, R47). -/
@[simp] def inspectLimit : Nat := 320

/-- Free: by how much `INSPECT_ADDR_BITS` exceeds its lower bound (D9, log 9). -/
opaque inspectAddrBitsExtra : Nat

/-- Free: by how much `INSPECT_LEN_BITS` exceeds its lower bound (D9, log 9). -/
opaque inspectLenBitsExtra : Nat

/-- Free: by how much `LOAD_LEN_BITS` exceeds its lower bound (D10, log 9). -/
opaque loadLenBitsExtra : Nat

/-- Free: by how much `CYCLES_PER_PHASE` exceeds one (D1, D13, log 10). -/
opaque cyclesPerPhaseExtra : Nat

/-- `INSPECT_ADDR_BITS`, OPEN, at least 9 (00_scope.md section 3, D9). -/
def inspectAddrBits : Nat := 9 + inspectAddrBitsExtra

/-- `INSPECT_LEN_BITS`, OPEN, at least 1 (D9). -/
def inspectLenBits : Nat := 1 + inspectLenBitsExtra

/-- `LOAD_LEN_BITS`, OPEN, at least 9 (D10). -/
def loadLenBits : Nat := 9 + loadLenBitsExtra

/-- `CYCLES_PER_PHASE`, OPEN, any positive count; no rule of the spec reads it (R139, D1). -/
def cyclesPerPhase : Nat := 1 + cyclesPerPhaseExtra

end Sys2Proof.Config
end

