-- ==== Sys2Proof/Machine/State.lean ====
section
/-!
DEFINITION. The state of the core, the tuple `(PC, ACC, C, Z, RUNNING, IM, DM)` of spec/10_state.md, its value after
POWER_ON (R30), and the reasons a step can stop.
-/

namespace Sys2Proof.Machine

/-- Why the machine stops with a fault. -/
inductive Fault where
  /-- `ProgramCounterOutOfRange` with the `PC` value it records (R111, R113). Raised by `step` where the fetch access
  fails, which needs a `PC` of 256 or more; no state of this core has one, so no step raises it (C1, log 4). Safe. -/
  | programCounterOutOfRange (pc : Nat)
  deriving DecidableEq, Repr

/-- Why an instruction has no meaning. -/
inductive Refusal where
  /-- Rejected by name in `exec`'s arm: not modelled yet. No arm uses it, every instruction has its meaning. Safe. -/
  | notModelled (mnemonic : String)
  deriving DecidableEq, Repr

/-- A memory of `w`-bit words: the addresses that hold something other than zero, rising, with their words. An unlisted
address reads as zero, the value POWER_ON and a short LOAD give it (R30, R44, log 6). `Memory 8` is `List Host.Cell`. -/
abbrev Memory (w : Nat) := List (Nat × BitVec w)

/-- The architectural state (10_state.md); nothing else is state (R28). -/
structure State where
  /-- `PC`: the address of the next word to fetch (R20). -/
  pc : Byte
  /-- `ACC`: the accumulator (R21). -/
  acc : Nibble
  /-- `C`: the Carry flag (R22). -/
  c : Bool
  /-- `Z`: the Zero flag (R23). -/
  z : Bool
  /-- `RUNNING`: false is the host's "halted" (R24). -/
  running : Bool
  /-- `IM`: instruction memory, 256 words of 8 bits (R25). -/
  im : Memory 8
  /-- `DM`: data memory, 64 words of 4 bits (R26). -/
  dm : Memory 4
  deriving DecidableEq, Repr

/-- The state after POWER_ON (R30, R130): every register and flag zero, not running, both memories zero-filled. -/
def State.reset : State :=
  { pc := 0, acc := 0, c := false, z := false, running := false, im := [], dm := [] }

end Sys2Proof.Machine
end

