-- ==== Sys2Proof/Machine/Ops.lean ====
section
/-!
DEFINITION. The named operations over memory and registers, the boundary guard, the fetch access, and the beginning of a
step up to EXECUTE (spec/20_memory.md R43, spec/30_encoding.md R67 to R70). The core takes no exception and returns from
none (spec/60_exceptions.md R110, R118), so no such operation stands here.
-/

namespace Sys2Proof.Machine

/-! ### Memory -/

/-- `MemRead(M, a, 1)`: the word at address `a`; an unlisted address reads as zero. -/
def Memory.read {w : Nat} (m : Memory w) (a : Nat) : BitVec w :=
  match m with
  | [] => 0
  | (b, v) :: rest => if b = a then v else Memory.read rest a

/-- `MemWrite(M, a, 1, v)`: keeps the list rising and lists no zero. -/
def Memory.write {w : Nat} (m : Memory w) (a : Nat) (v : BitVec w) : Memory w :=
  match m with
  | [] => if v = 0 then [] else [(a, v)]
  | (b, u) :: rest =>
    if a < b then (if v = 0 then (b, u) :: rest else (a, v) :: (b, u) :: rest)
    else if a = b then (if v = 0 then rest else (a, v) :: rest)
    else (b, u) :: Memory.write rest a v

/-- The memory that holds `words` from address `a` up and zero everywhere else. -/
def Memory.ofWords {w : Nat} (a : Nat) (words : List (BitVec w)) : Memory w :=
  match words with
  | [] => []
  | v :: rest => if v = 0 then Memory.ofWords (a + 1) rest else (a, v) :: Memory.ofWords (a + 1) rest

/-- The words at `a`, `a + 1`, ... in increasing address order, at most `length` of them and none at or past `capacity`
(the slice-style truncation of R48 and R49). -/
def Memory.slice {w : Nat} (m : Memory w) (capacity a length : Nat) : List (BitVec w) :=
  (List.range' a (min (a + length) capacity - a)).map m.read

/-- Canonical form from address `lo` up: addresses strictly rising and below `capacity`, no word zero. -/
def Memory.wfFrom {w : Nat} (lo capacity : Nat) (m : Memory w) : Bool :=
  match m with
  | [] => true
  | (a, v) :: rest =>
    decide (lo ≤ a) && decide (a < capacity) && decide (v ≠ 0) && Memory.wfFrom (a + 1) capacity rest

/-- The canonical form of a memory of `capacity` words. -/
def Memory.wf {w : Nat} (capacity : Nat) (m : Memory w) : Bool := Memory.wfFrom 0 capacity m

/-! ### Registers -/

/-- `PC <- v` (R20). -/
def State.setPc (s : State) (v : Byte) : State := { s with pc := v }

/-- `ACC <- v` (R21). -/
def State.setAcc (s : State) (v : Nibble) : State := { s with acc := v }

/-- `C <- cv` and `Z <- zv` (R22, R23): the flags are written together, by the flag rule alone. -/
def State.setCZ (s : State) (cv zv : Bool) : State := { s with c := cv, z := zv }

/-- `RUNNING <- v` (R24). -/
def State.setRunning (s : State) (v : Bool) : State := { s with running := v }

/-- Replace instruction memory; only LOAD does (R41). -/
def State.setIm (s : State) (m : Memory 8) : State := { s with im := m }

/-! ### The step up to EXECUTE -/

/-- `halt`: `RUNNING <- false` (00_scope.md section 5). -/
def halt (s : State) : State := s.setRunning false

/-- The boundary guard: true where a step halts without fetching (R68). -/
def boundaryGuard (pc : Nat) : Bool := decide (pc ≥ Config.guardPc)

/-- What a fetch access gives. -/
inductive FetchResult where
  /-- The word, and the state with `PC` advanced. -/
  | fetched (w : Byte) (s : State)
  /-- `ProgramCounterOutOfRange` with the `PC` it records, and the state left behind, `RUNNING` already false. -/
  | outOfRange (pc : Nat) (s : State)
  deriving DecidableEq, Repr

/-- `Fetch()` of R43 at the address `pc`, a natural number so that the bounds check is written as the rule has it:
halt first, then report. -/
def fetchAt (pc : Nat) (s : State) : FetchResult :=
  if pc ≥ Config.imWords then .outOfRange pc (halt s)
  else .fetched (s.im.read pc) (s.setPc (BitVec.ofNat 8 ((pc + 1) % 256)))

/-- The fetch access of the core: at its 8-bit `PC` (R20, R43). -/
def fetch (s : State) : FetchResult := fetchAt s.pc.toNat s

/-- How a step stands when its GUARD and FETCH are done. -/
inductive StepStart where
  /-- The boundary guard halted the step: no fetch (R68). -/
  | halted (s : State)
  /-- A word was fetched; DECODE and EXECUTE follow on this state. -/
  | fetched (w : Byte) (s : State)
  /-- The fetch failed (R43, R113); never in this core. -/
  | outOfRange (pc : Nat) (s : State)
  deriving DecidableEq, Repr

/-- GUARD and FETCH of `STEP()` (R67 to R69): `RUNNING <- true`, whatever it was; then the guard; then the fetch. -/
def startStep (s : State) : StepStart :=
  let running := s.setRunning true
  if boundaryGuard running.pc.toNat then .halted (halt running)
  else
    match fetch running with
    | .fetched w t => .fetched w t
    | .outOfRange pc t => .outOfRange pc t

/-- `s` with the word `w` where the next step fetches it. A step fetches nothing at `PC = 255` (R68), so there the word is
placed at the reset vector and `PC` moved to it (log 7). -/
def placeWord (s : State) (w : Byte) : State :=
  if boundaryGuard s.pc.toNat then (s.setPc 0).setIm (s.im.write 0 w)
  else s.setIm (s.im.write s.pc.toNat w)

end Sys2Proof.Machine
end

