-- ==== Sys2Proof/Machine/Operands.lean ====
section
/-!
DEFINITION. The operand forms: the accumulator and the immediate as unsigned integers, the absolute jump target, and the
narrowing of an integer result to the accumulator (spec/30_encoding.md R61, spec/41_arithmetic.md).
-/

namespace Sys2Proof.Machine

/-- The immediate `k` as an unsigned integer, 0 to 15; never sign-extended (R61). -/
def immediate (k : Nibble) : Int := k.toNat

/-- The accumulator as an unsigned integer, 0 to 15 (R21). -/
def accValue (s : State) : Int := s.acc.toNat

/-- `zext_8(k)`: the absolute target of a jump (R61, R100). -/
def jumpTarget (k : Nibble) : Byte := k.setWidth 8

/-- `result mod 16` with the floored modulus, in 4 bits: `result & 0xF` (00_scope.md section 5; log 13). -/
def low4 (result : Int) : Nibble := BitVec.ofNat 4 (result % 16).toNat

end Sys2Proof.Machine
end

