-- ==== Sys2Proof/Machine/Flags.lean ====
section
/-!
DEFINITION. The one flag rule of the core, shared by ADD and SUB and applied to the result before it is masked
(spec/41_arithmetic.md R90).
-/

namespace Sys2Proof.Machine

/-- `Carry = (result > 15) or (result < 0)`: overflow of an add, borrow of a subtract (R90). -/
def carryOf (result : Int) : Bool := decide (result > 15) || decide (result < 0)

/-- `Zero = (result mod 16 = 0)`: the masked value, whatever the carry (R90). -/
def zeroOf (result : Int) : Bool := decide (result % 16 = 0)

/-- `SetFlags(result)`: both flags are written (R90). -/
def setFlags (result : Int) (s : State) : State := s.setCZ (carryOf result) (zeroOf result)

end Sys2Proof.Machine
end

