-- ==== Sys2Proof/Machine/Handlers.lean ====
section
/-!
DEFINITION. The four handlers of the dispatch table and the table itself, a constant of the design (spec/10_state.md R27,
spec/30_encoding.md R63, R71). A handler's only input is the operand; it cannot fail. It runs on the state after the
fetch, where `PC` is already advanced (R71).
-/

namespace Sys2Proof.Machine

/-- The no-op handler: no state change (R80). -/
def noEffect (_k : Nibble) (s : State) : State := s

/-- What ADD and SUB share: flags from the integer result, then the accumulator (R91, R92). -/
def writeResult (result : Int) (s : State) : State := (setFlags result s).setAcc (low4 result)

/-- The add handler: `result <- ACC + k` (R91). -/
def addImmediate (k : Nibble) (s : State) : State := writeResult (accValue s + immediate k) s

/-- The subtract handler: `result <- ACC - k` (R92). -/
def subImmediate (k : Nibble) (s : State) : State := writeResult (accValue s - immediate k) s

/-- The jump handler: `PC <- zext_8(k)` (R100). -/
def jumpAbsolute (k : Nibble) (s : State) : State := s.setPc (jumpTarget k)

/-- The handlers of the dispatch table (R27). -/
inductive Handler where
  | nop
  | add
  | sub
  | jmp
  deriving DecidableEq, Repr

/-- The dispatch table: codes 0 to 3, and no-op for any other code (R27, R63). -/
def dispatch (opc : Nibble) : Handler :=
  match opc.toNat with
  | 0 => .nop
  | 1 => .add
  | 2 => .sub
  | 3 => .jmp
  | _ => .nop

/-- `Execute(h, k)` (R71). -/
def runHandler (h : Handler) (k : Nibble) (s : State) : State :=
  match h with
  | .nop => noEffect k s
  | .add => addImmediate k s
  | .sub => subImmediate k s
  | .jmp => jumpAbsolute k s

end Sys2Proof.Machine
end

