-- ==== Sys2Proof/Machine/Arithmetic.lean ====
section
/-!
DEFINITION. The arithmetic family: ADD and SUB (spec/41_arithmetic.md R91, R92).
-/

namespace Sys2Proof.Machine

/-- ADD `#k` (R91). -/
def execAdd (k : Nibble) (s : State) : Host.Outcome State Fault Refusal := .next (addImmediate k s)

/-- SUB `#k` (R92). -/
def execSub (k : Nibble) (s : State) : Host.Outcome State Fault Refusal := .next (subImmediate k s)

end Sys2Proof.Machine
end

