-- ==== Sys2Proof/Machine/Jump.lean ====
section
/-!
DEFINITION. Control transfer: JMP, the only one (spec/42_jump.md R100, R101).
-/

namespace Sys2Proof.Machine

/-- JMP `k` (R100): overwrites the fetch's `PC + 1`. -/
def execJmp (k : Nibble) (s : State) : Host.Outcome State Fault Refusal := .next (jumpAbsolute k s)

end Sys2Proof.Machine
end

