-- ==== Sys2Proof/Machine/Noop.lean ====
section
/-!
DEFINITION. The no-operation family: NOP and the twelve unmapped operation codes (spec/40_noop.md R80, R81). Each has a
meaning of its own over the one no-op handler.
-/

namespace Sys2Proof.Machine

/-- NOP (R80): no state change; the operand is ignored. -/
def execNop (k : Nibble) (s : State) : Host.Outcome State Fault Refusal := .next (noEffect k s)

/-- Operation code `0x4` (R81): executes as NOP. -/
def execXnop4 (k : Nibble) (s : State) : Host.Outcome State Fault Refusal := .next (noEffect k s)

/-- Operation code `0x5` (R81): executes as NOP. -/
def execXnop5 (k : Nibble) (s : State) : Host.Outcome State Fault Refusal := .next (noEffect k s)

/-- Operation code `0x6` (R81): executes as NOP. -/
def execXnop6 (k : Nibble) (s : State) : Host.Outcome State Fault Refusal := .next (noEffect k s)

/-- Operation code `0x7` (R81): executes as NOP. -/
def execXnop7 (k : Nibble) (s : State) : Host.Outcome State Fault Refusal := .next (noEffect k s)

/-- Operation code `0x8` (R81): executes as NOP. -/
def execXnop8 (k : Nibble) (s : State) : Host.Outcome State Fault Refusal := .next (noEffect k s)

/-- Operation code `0x9` (R81): executes as NOP. -/
def execXnop9 (k : Nibble) (s : State) : Host.Outcome State Fault Refusal := .next (noEffect k s)

/-- Operation code `0xA` (R81): executes as NOP. -/
def execXnopA (k : Nibble) (s : State) : Host.Outcome State Fault Refusal := .next (noEffect k s)

/-- Operation code `0xB` (R81): executes as NOP. -/
def execXnopB (k : Nibble) (s : State) : Host.Outcome State Fault Refusal := .next (noEffect k s)

/-- Operation code `0xC` (R81): executes as NOP. -/
def execXnopC (k : Nibble) (s : State) : Host.Outcome State Fault Refusal := .next (noEffect k s)

/-- Operation code `0xD` (R81): executes as NOP. -/
def execXnopD (k : Nibble) (s : State) : Host.Outcome State Fault Refusal := .next (noEffect k s)

/-- Operation code `0xE` (R81): executes as NOP. -/
def execXnopE (k : Nibble) (s : State) : Host.Outcome State Fault Refusal := .next (noEffect k s)

/-- Operation code `0xF` (R81): executes as NOP. -/
def execXnopF (k : Nibble) (s : State) : Host.Outcome State Fault Refusal := .next (noEffect k s)

end Sys2Proof.Machine
end

