-- ==== Sys2Proof/Machine/Dispatch.lean ====
section
/-!
DEFINITION. The dispatch of an instruction to its meaning, one arm per constructor (spec/30_encoding.md R71).
-/

namespace Sys2Proof.Machine

def exec (i : Instr) (s : State) : Host.Outcome State Fault Refusal :=
  match i with
  | .nop k => Sys2Proof.Machine.execNop k s
  | .add k => Sys2Proof.Machine.execAdd k s
  | .sub k => Sys2Proof.Machine.execSub k s
  | .jmp k => Sys2Proof.Machine.execJmp k s
  | .xnop4 k => Sys2Proof.Machine.execXnop4 k s
  | .xnop5 k => Sys2Proof.Machine.execXnop5 k s
  | .xnop6 k => Sys2Proof.Machine.execXnop6 k s
  | .xnop7 k => Sys2Proof.Machine.execXnop7 k s
  | .xnop8 k => Sys2Proof.Machine.execXnop8 k s
  | .xnop9 k => Sys2Proof.Machine.execXnop9 k s
  | .xnopA k => Sys2Proof.Machine.execXnopA k s
  | .xnopB k => Sys2Proof.Machine.execXnopB k s
  | .xnopC k => Sys2Proof.Machine.execXnopC k s
  | .xnopD k => Sys2Proof.Machine.execXnopD k s
  | .xnopE k => Sys2Proof.Machine.execXnopE k s
  | .xnopF k => Sys2Proof.Machine.execXnopF k s

end Sys2Proof.Machine
end

