-- ==== Sys2Proof/Machine/Step.lean ====
section
/-!
DEFINITION. One STEP: guard, fetch, decode, execute (spec/30_encoding.md R67 to R71), over the operations of
Machine/Ops.lean and the decoder; and the placing of a word where the next step fetches it.
-/

namespace Sys2Proof.Machine

/-- `STEP()` of R67. -/
def step (s : State) : Host.Outcome State Fault Refusal :=
  match startStep s with
  | .halted t => .next t
  | .fetched w t => exec (decode w) t
  | .outOfRange pc _ => .fault (.programCounterOutOfRange pc)

/-- `s` with the 8-bit word `w` placed so that the very next step fetches and runs it (log 7). -/
def State.withFetchWord (s : State) (_nbits w : Nat) : State := placeWord s (BitVec.ofNat 8 w)

end Sys2Proof.Machine
end

