-- ==== Sys2Proof/Machine/Assembler.lean ====
section
/-!
DEFINITION. The assembly statements of spec/30_encoding.md R66 (the spec's decision D11), the checks an assembler makes on
them, the word each stands for, and the disassembler. They carry no meaning beyond the word (D11, log 14).
-/

namespace Sys2Proof.Machine

/-- The target of `JMP t`: a number, or a label (R66). -/
inductive Target where
  | address (t : Nat)
  | label (name : String)
  deriving DecidableEq, Repr

/-- An assembly statement as written, its numbers not yet checked (R66). -/
inductive Stmt where
  /-- `NOP` -/
  | nop
  /-- `NOP #k` -/
  | nopImm (k : Nat)
  /-- `ADD #k` -/
  | add (k : Nat)
  /-- `SUB #k` -/
  | sub (k : Nat)
  /-- `JMP t` -/
  | jmp (t : Target)
  /-- `XNOP c, #k` -/
  | xnop (c k : Nat)
  /-- `.word 0xhh` -/
  | word (w : Nat)
  deriving DecidableEq, Repr

/-- Why an assembler refuses a statement or a program. -/
inductive AsmRefusal where
  | operandOutOfRange (k : Nat)
  | targetOutOfRange (t : Nat)
  | undefinedLabel (name : String)
  | duplicateLabel (name : String)
  | codeOutOfRange (c : Nat)
  | wordOutOfRange (w : Nat)
  deriving DecidableEq, Repr

/-- The addresses of the labels. -/
abbrev Symbols := List (String × Nat)

/-- The address a target names: a number itself, a label its address. -/
def Target.resolve (symbols : Symbols) (t : Target) : Option Nat :=
  match t with
  | .address a => some a
  | .label name => symbols.lookup name

/-- What an assembler accepts (R66): operands 0 to 15, targets whose address is 0 to 15, codes 4 to 15, 8-bit words. -/
def Stmt.wellFormed (symbols : Symbols) (st : Stmt) : Bool :=
  match st with
  | .nop => true
  | .nopImm k => decide (k ≤ 15)
  | .add k => decide (k ≤ 15)
  | .sub k => decide (k ≤ 15)
  | .jmp t =>
    match t.resolve symbols with
    | some a => decide (a ≤ 15)
    | none => false
  | .xnop c k => decide (4 ≤ c) && decide (c ≤ 15) && decide (k ≤ 15)
  | .word w => decide (w ≤ 255)

/-- The word `ck` of an operation code and an operand in 0 to 15. -/
def wordOf (c k : Nat) : Except AsmRefusal Byte :=
  if k ≤ 15 then .ok (BitVec.ofNat 8 (16 * c + k)) else .error (.operandOutOfRange k)

/-- The word of a statement, or the reason it has none (R66). -/
def assemble (symbols : Symbols) (st : Stmt) : Except AsmRefusal Byte :=
  match st with
  | .nop => .ok 0x00
  | .nopImm k => wordOf 0 k
  | .add k => wordOf 1 k
  | .sub k => wordOf 2 k
  | .jmp t =>
    match t, t.resolve symbols with
    | _, some a => if a ≤ 15 then wordOf 3 a else .error (.targetOutOfRange a)
    | .label name, none => .error (.undefinedLabel name)
    | .address a, none => .error (.targetOutOfRange a)
  | .xnop c k => if 4 ≤ c ∧ c ≤ 15 then wordOf c k else .error (.codeOutOfRange c)
  | .word w => if w ≤ 255 then .ok (BitVec.ofNat 8 w) else .error (.wordOutOfRange w)

/-- A word in the first form that matches, `NOP #0` as `NOP` (R66); `.word` is never needed. -/
def disassemble (w : Byte) : Stmt :=
  match (opcodeField w).toNat with
  | 0 => if operandField w = 0 then .nop else .nopImm (operandField w).toNat
  | 1 => .add (operandField w).toNat
  | 2 => .sub (operandField w).toNat
  | 3 => .jmp (.address (operandField w).toNat)
  | c => .xnop c (operandField w).toNat

/-- One hexadecimal digit. -/
def hexDigit (n : Nat) : String := ((["0", "1", "2", "3", "4", "5", "6", "7", "8", "9", "a", "b", "c", "d", "e", "f"])[n % 16]?).getD ""

/-- The text of a statement (R66). -/
def Stmt.text (st : Stmt) : String :=
  match st with
  | .nop => "NOP"
  | .nopImm k => "NOP #" ++ toString k
  | .add k => "ADD #" ++ toString k
  | .sub k => "SUB #" ++ toString k
  | .jmp (.address a) => "JMP " ++ toString a
  | .jmp (.label name) => "JMP " ++ name
  | .xnop c k => "XNOP " ++ toString c ++ ", #" ++ toString k
  | .word w => ".word 0x" ++ hexDigit (w / 16) ++ hexDigit w

/-- A line of a program: a label, if it has one, and a statement. -/
structure Line where
  label : Option String
  stmt : Stmt
  deriving DecidableEq, Repr

/-- The labels of the lines from address `a` up; a label defined twice is refused (log 14). -/
def symbolsFrom (a : Nat) (lines : List Line) : Except AsmRefusal Symbols :=
  match lines with
  | [] => .ok []
  | l :: rest =>
    match symbolsFrom (a + 1) rest, l.label with
    | .error e, _ => .error e
    | .ok syms, none => .ok syms
    | .ok syms, some name => if (syms.lookup name).isSome then .error (.duplicateLabel name) else .ok ((name, a) :: syms)

/-- The words of the lines under a table of labels. -/
def assembleLines (symbols : Symbols) (lines : List Line) : Except AsmRefusal (List Byte) :=
  match lines with
  | [] => .ok []
  | l :: rest =>
    match assemble symbols l.stmt, assembleLines symbols rest with
    | .error e, _ => .error e
    | .ok _, .error e => .error e
    | .ok w, .ok ws => .ok (w :: ws)

/-- A program's words from address 0 up, one line a word. -/
def assembleProgram (lines : List Line) : Except AsmRefusal (List Byte) :=
  match symbolsFrom 0 lines with
  | .error e => .error e
  | .ok symbols => assembleLines symbols lines

end Sys2Proof.Machine
end

