-- ==== Sys2Proof/Machine/HostOps.lean ====
section
/-!
DEFINITION. The host's operations but STEP: POWER_ON, RESET, LOAD, STOP, INSPECT, the error results they give, and the
status outputs the host samples (spec/00_scope.md R5 to R7, spec/20_memory.md R44 to R51, spec/60_exceptions.md R111).
-/

namespace Sys2Proof.Machine

/-- The three error kinds, each with the value it records (R111; the recorded values are the spec's decision D6). -/
inductive HostError where
  /-- `LOAD` of more than 256 bytes; records the length (R112). -/
  | capacityExceeded (length : Nat)
  /-- A fetch at `PC ≥ 256`; records the `PC`; never in this core (R113). -/
  | programCounterOutOfRange (pc : Nat)
  /-- `INSPECT` at 320 or above; records the address (R114). -/
  | addressOutOfRange (address : Nat)
  deriving DecidableEq, Repr

/-- What an operation gives back: `OK`, `OK` with words, or one error (R6). -/
inductive HostResult where
  | ok
  | imWords (ws : List Byte)
  | dmWords (ws : List Nibble)
  | error (e : HostError)
  deriving DecidableEq, Repr

/-- The code on the result port: 0 for `OK`, 1 to 3 for the error kinds (R111, D6, log 11). -/
def HostResult.code (r : HostResult) : Nat :=
  match r with
  | .ok => 0
  | .imWords _ => 0
  | .dmWords _ => 0
  | .error (.capacityExceeded _) => 1
  | .error (.programCounterOutOfRange _) => 2
  | .error (.addressOutOfRange _) => 3

/-- The value recorded with an error (R111, D6, log 11). -/
def HostResult.recorded (r : HostResult) : Option Nat :=
  match r with
  | .ok => none
  | .imWords _ => none
  | .dmWords _ => none
  | .error (.capacityExceeded n) => some n
  | .error (.programCounterOutOfRange n) => some n
  | .error (.addressOutOfRange n) => some n

/-- The read-only status outputs, sampled between operations (R7, D2, log 17). -/
structure Status where
  pc : Byte
  acc : Nibble
  c : Bool
  z : Bool
  running : Bool
  deriving DecidableEq, Repr

/-- The status outputs of a state (R7). -/
def status (s : State) : Status := { pc := s.pc, acc := s.acc, c := s.c, z := s.z, running := s.running }

/-- `POWER_ON`: writes every piece of state, whatever it was (R30, R130). -/
def powerOn (_s : State) : State := State.reset

/-- `RESET`: clears the registers, the flags and `RUNNING`, and keeps both memories (R31, R131; extent D3, log 2). -/
def hostReset (s : State) : State := (((s.setPc 0).setAcc 0).setCZ false false).setRunning false

/-- `STOP`: `RUNNING <- false` and nothing else (R72). -/
def stop (s : State) : State := s.setRunning false

/-- `LOAD(bytes)`: the capacity check, then all of instruction memory is overwritten, the tail with zero (R44, R45). -/
def load (bytes : List Byte) (s : State) : State × HostResult :=
  if bytes.length > Config.imWords then (s, .error (.capacityExceeded bytes.length))
  else (s.setIm (Memory.ofWords 0 bytes), .ok)

/-- `INSPECT(address, length = 1)`: the address alone selects the region; truncated at the region's end (R47 to R50). -/
def inspect (s : State) (address : Nat) (length : Nat := 1) : HostResult :=
  if address < Config.dmInspectBase then .imWords (s.im.slice Config.imWords address length)
  else if address < Config.inspectLimit then
    .dmWords (s.dm.slice Config.dmWords (address - Config.dmInspectBase) length)
  else .error (.addressOutOfRange address)

/-- The host's port can present this `INSPECT` (D9, log 9); no result depends on it. -/
def inspectPresentable (address length : Nat) : Bool :=
  decide (address < 2 ^ Config.inspectAddrBits) && decide (length < 2 ^ Config.inspectLenBits)

/-- The host's port can present a `LOAD` of this length (D10, log 9); no result depends on it. -/
def loadPresentable (length : Nat) : Bool := decide (length < 2 ^ Config.loadLenBits)

end Sys2Proof.Machine
end

