-- ==== Sys2Proof/Machine/Phases.lean ====
section
/-!
DEFINITION. The step as a finite-state machine: GUARD, FETCH, DECODE, EXECUTE, then IDLE (spec/30_encoding.md R70; the
phase names and IDLE are the spec's decision D1). What a phase latches is not architectural state (spec/10_state.md R29),
so it lives in Phase and not in State (log 12).
-/

namespace Sys2Proof.Machine

/-- A phase with what it has latched. -/
inductive Phase where
  | guard
  | fetch
  | decode (w : Byte)
  | execute (h : Handler) (k : Nibble)
  | idle (r : HostResult)
  deriving DecidableEq, Repr

/-- One phase (R67, R70). -/
def advancePhase (p : Phase) (s : State) : Phase × State :=
  match p with
  | .guard =>
    let running := s.setRunning true
    if boundaryGuard running.pc.toNat then (.idle .ok, halt running) else (.fetch, running)
  | .fetch =>
    match Sys2Proof.Machine.fetch s with
    | .fetched w t => (.decode w, t)
    | .outOfRange pc t => (.idle (.error (.programCounterOutOfRange pc)), t)
  | .decode w => (.execute (dispatch (opcodeField w)) (operandField w), s)
  | .execute h k => (.idle .ok, runHandler h k s)
  | .idle r => (.idle r, s)

/-- `n` phases from a phase on. -/
def runPhases (n : Nat) (p : Phase) (s : State) : Phase × State :=
  match n with
  | 0 => (p, s)
  | n + 1 => runPhases n (advancePhase p s).1 (advancePhase p s).2

end Sys2Proof.Machine
end

