-- ==== Sys2Proof/Machine/Transact.lean ====
section
/-!
DEFINITION. The six host operations as one indivisible transaction each, and a run as a list of them (spec/00_scope.md R5,
R6, spec/60_exceptions.md R115, spec/70_reset_and_hazards.md R133, R137).
-/

namespace Sys2Proof.Machine

/-- The host's six operations (R5). -/
inductive HostOp where
  | powerOn
  | reset
  | load (bytes : List Byte)
  | step
  | stop
  | inspect (address length : Nat)
  deriving DecidableEq, Repr

/-- `STEP` as the host sees it: a failed fetch is a result of the operation, with `RUNNING` already false, after which the
host may go on (R113, R115); `step` answers the same states and turns that result into a fault (log 4). -/
def hostStep (s : State) : Host.Outcome (State × HostResult) Fault Refusal :=
  match startStep s with
  | .halted t => .next (t, .ok)
  | .outOfRange pc t => .next (t, .error (.programCounterOutOfRange pc))
  | .fetched w t =>
    match exec (decode w) t with
    | .next u => .next (u, .ok)
    | .fault r => .fault r
    | .refused r => .refused r

/-- One host operation: the next state and the result (R5, R6). -/
def transact (op : HostOp) (s : State) : Host.Outcome (State × HostResult) Fault Refusal :=
  match op with
  | .powerOn => .next (powerOn s, .ok)
  | .reset => .next (hostReset s, .ok)
  | .load bytes => .next (load bytes s)
  | .step => hostStep s
  | .stop => .next (stop s, .ok)
  | .inspect address length => .next (s, inspect s address length)

/-- A run: the operations one after another, with their results (R137). -/
def runOps (ops : List HostOp) (s : State) : Host.Outcome (State × List HostResult) Fault Refusal :=
  match ops with
  | [] => .next (s, [])
  | op :: rest =>
    match transact op s with
    | .fault r => .fault r
    | .refused r => .refused r
    | .next (t, r) =>
      match runOps rest t with
      | .fault r' => .fault r'
      | .refused r' => .refused r'
      | .next (u, rs) => .next (u, r :: rs)

end Sys2Proof.Machine
end

