-- ==== Sys2Proof/WellFormed.lean ====
section
/-!
DEFINITION. Well-formedness of an instruction: its operand is a value in 0 to 15 (spec/30_encoding.md R61). The operand's
type already says so and R64 makes every word a legal instruction, so every term of Instr passes; what a writer can get
wrong is an assembly statement, whose checks stand in Machine/Assembler.lean (log 8).
-/

namespace Sys2Proof

/-- The check on an instruction: the operand lies in 0 to 15 (R61). -/
def Instr.wellFormed (i : Instr) : Bool :=
  match i with
  | .nop k => decide (k.toNat ≤ 15)
  | .add k => decide (k.toNat ≤ 15)
  | .sub k => decide (k.toNat ≤ 15)
  | .jmp k => decide (k.toNat ≤ 15)
  | .xnop4 k => decide (k.toNat ≤ 15)
  | .xnop5 k => decide (k.toNat ≤ 15)
  | .xnop6 k => decide (k.toNat ≤ 15)
  | .xnop7 k => decide (k.toNat ≤ 15)
  | .xnop8 k => decide (k.toNat ≤ 15)
  | .xnop9 k => decide (k.toNat ≤ 15)
  | .xnopA k => decide (k.toNat ≤ 15)
  | .xnopB k => decide (k.toNat ≤ 15)
  | .xnopC k => decide (k.toNat ≤ 15)
  | .xnopD k => decide (k.toNat ≤ 15)
  | .xnopE k => decide (k.toNat ≤ 15)
  | .xnopF k => decide (k.toNat ≤ 15)

/-- A well-formed instruction. -/
abbrev Instr.WellFormed (i : Instr) : Prop := i.wellFormed = true

end Sys2Proof
end

