-- ==== Sys2Proof/Safety.lean ====
section
/-!
DEFINITION. The terms the statements use: the invariant of the core, what one memory or one state leaves unchanged against
another, a step that fetches a given word, and a safe step (one that answers a next state).
-/

namespace Sys2Proof.Safety

open Sys2Proof.Machine

/-- The invariant of the core: both memories in canonical form and inside their capacity (R25, R26), data memory zero
(R32), and the Zero flag set only over a zero accumulator (R90 to R92: the two are written together). -/
def Inv (s : State) : Prop :=
  Memory.wf Config.imWords s.im = true ∧ Memory.wf Config.dmWords s.dm = true ∧ (∀ a, s.dm.read a = 0) ∧
    (s.z = true → s.acc = 0)

/-- Every word of both memories reads the same. -/
def SameMemories (s t : State) : Prop := (∀ a, t.im.read a = s.im.read a) ∧ ∀ a, t.dm.read a = s.dm.read a

/-- The accumulator and both flags are the same. -/
def SameData (s t : State) : Prop := t.acc = s.acc ∧ t.c = s.c ∧ t.z = s.z

/-- From `s` to `t` the `PC` has advanced by one, mod 256, and nothing else has changed; of `RUNNING`, which a STEP writes
under the spec's decision D4, it says nothing. -/
def AdvancesPcOnly (s t : State) : Prop := t.pc = s.pc + 1 ∧ SameData s t ∧ SameMemories s t

/-- A step from `s` fetches the word `w`: the guard does not halt it, and `w` stands at `PC` (R43, R68). -/
def Fetches (s : State) (w : Byte) : Prop := s.pc ≠ 255 ∧ s.im.read s.pc.toNat = w

/-- A state from which a step answers a next state, neither a fault nor a refusal. -/
def StepSafe (s : State) : Prop := ∃ t, step s = .next t

end Sys2Proof.Safety
end

