-- ==== Sys2Proof/Certificates/Slice0/Obligations.lean ====
section
/-!
DEFINITION. The statements for the provers, from the numbered rules of spec/. A docstring names the rule; where a clause
rests on a decision the spec marks as its own (D<n> of spec/92_eei_decisions.md), it says so.
-/

open Sys2Proof Sys2Proof.Machine Sys2Proof.Safety

/-! ### Reset -/

/-- R30: POWER_ON gives every piece of state its value, whatever the state was, and the dispatch table is the fixed one. -/
def Obligations.PowerOnGivesEveryValue : Prop :=
  (∀ s : State, (powerOn s).pc = 0 ∧ (powerOn s).acc = 0 ∧ (powerOn s).c = false ∧ (powerOn s).z = false ∧
    (powerOn s).running = false ∧ (∀ a, a < 256 → (powerOn s).im.read a = 0) ∧
    (∀ a, a < 64 → (powerOn s).dm.read a = 0) ∧ powerOn s = State.reset) ∧
  dispatch 0 = .nop ∧ dispatch 1 = .add ∧ dispatch 2 = .sub ∧ dispatch 3 = .jmp ∧
  ∀ c : Nibble, 4 ≤ c.toNat → dispatch c = .nop

/-- RESET clears the registers, the flags and RUNNING, keeps both memories, and the next step fetches the word at address 0.
The extent of RESET is the spec's own choice (decision D3, log 2). -/
def Obligations.ResetClearsRegistersKeepsMemories : Prop :=
  ∀ s : State, hostReset s = { s with pc := 0, acc := 0, c := false, z := false, running := false } ∧
    ∃ t, startStep (hostReset s) = .fetched (s.im.read 0) t

/-! ### Encoding and dispatch -/

/-- R60: bits 7:4 of a word are the operation code and bits 3:0 the operand, and there are no other fields. -/
def Obligations.DecodeSplitsTheWord : Prop :=
  (∀ w : Byte, (decode w).opcode.toNat = w.toNat / 16 ∧ (decode w).operand.toNat = w.toNat % 16) ∧
  ∀ v w : Byte, (decode v).opcode = (decode w).opcode → (decode v).operand = (decode w).operand → v = w

/-- R63: the dispatch table, and that executing the instruction of a word runs the handler of its operation code. -/
def Obligations.DispatchTableSelectsHandler : Prop :=
  (dispatch 0 = .nop ∧ dispatch 1 = .add ∧ dispatch 2 = .sub ∧ dispatch 3 = .jmp ∧
    ∀ c : Nibble, 4 ≤ c.toNat → dispatch c = .nop) ∧
  ∀ (w : Byte) (s : State), exec (decode w) s = .next (runHandler (dispatch (opcodeField w)) (operandField w) s)

/-- Decode and encode agree both ways: no bit of a word is dropped, and every word is one whole instruction (R60, R64, R65). -/
def Obligations.DecodeEncodeAgree : Prop :=
  (∀ (i : Instr) (rest : List Byte), i.WellFormed ∧ decode (encode i) = i ∧ decodeBytes (encode i :: rest) = .ok (i, rest)) ∧
  ∀ w : Byte, encode (decode w) = w

/-- Words of every family, from the tables of R63 and the examples of R80, R81, R91, R92 and R100. -/
def Obligations.WordsDecodeAsTabulated : Prop :=
  decode 0x07 = .nop 7 ∧ decode 0x17 = .add 7 ∧ decode 0x25 = .sub 5 ∧ decode 0x32 = .jmp 2 ∧ decode 0x43 = .xnop4 3 ∧
  decode 0xFF = .xnopF 15

/-- R64: every word is a legal instruction, none traps, and the 208 words with an operation code other than 1, 2 and 3 all
have the same effect, none. -/
def Obligations.EveryWordIsLegal : Prop :=
  (∀ (w : Byte) (s : State), ∃ t, exec (decode w) s = .next t) ∧
  ∀ (w : Byte) (s : State), opcodeField w ≠ 1 → opcodeField w ≠ 2 → opcodeField w ≠ 3 → exec (decode w) s = .next s

/-! ### No-operation -/

/-- R80: NOP changes no state; its step advances the PC and does nothing else. -/
def Obligations.NopChangesNothing : Prop :=
  (∀ k : Nibble, decode (0x0#4 ++ k) = .nop k) ∧
  (∀ (k : Nibble) (s : State), exec (.nop k) s = .next s) ∧
  ∀ (k : Nibble) (s : State), Fetches s (0x0#4 ++ k) → ∃ t, step s = .next t ∧ AdvancesPcOnly s t

/-- R81: the twelve unmapped operation codes behave exactly as NOP. -/
def Obligations.UnmappedCodesActAsNop : Prop :=
  (∀ (k : Nibble) (s : State),
    exec (.xnop4 k) s = .next s ∧ exec (.xnop5 k) s = .next s ∧ exec (.xnop6 k) s = .next s ∧
    exec (.xnop7 k) s = .next s ∧ exec (.xnop8 k) s = .next s ∧ exec (.xnop9 k) s = .next s ∧
    exec (.xnopA k) s = .next s ∧ exec (.xnopB k) s = .next s ∧ exec (.xnopC k) s = .next s ∧
    exec (.xnopD k) s = .next s ∧ exec (.xnopE k) s = .next s ∧ exec (.xnopF k) s = .next s) ∧
  (∀ (c k : Nibble) (s : State), 4 ≤ c.toNat → exec (decode (c ++ k)) s = exec (.nop k) s) ∧
  ∀ (c k : Nibble) (s : State), 4 ≤ c.toNat → Fetches s (c ++ k) → ∃ t, step s = .next t ∧ AdvancesPcOnly s t

/-! ### Arithmetic -/

/-- R90: ADD and SUB set both flags from the result before it is masked, whatever the old flags. -/
def Obligations.FlagRuleOfAddAndSub : Prop :=
  (∀ (k : Nibble) (s : State), ∃ t, exec (.add k) s = .next t ∧
    (t.c = true ↔ (s.acc.toNat : Int) + k.toNat > 15 ∨ (s.acc.toNat : Int) + k.toNat < 0) ∧
    (t.z = true ↔ ((s.acc.toNat : Int) + k.toNat) % 16 = 0)) ∧
  ∀ (k : Nibble) (s : State), ∃ t, exec (.sub k) s = .next t ∧
    (t.c = true ↔ (s.acc.toNat : Int) - k.toNat > 15 ∨ (s.acc.toNat : Int) - k.toNat < 0) ∧
    (t.z = true ↔ ((s.acc.toNat : Int) - k.toNat) % 16 = 0)

/-- R91: ADD writes `(ACC + k) mod 16`, the carry and the zero flag, and nothing else. -/
def Obligations.AddWritesSumAndFlags : Prop :=
  (∀ k : Nibble, decode (0x1#4 ++ k) = .add k) ∧
  ∀ (k : Nibble) (s : State), exec (.add k) s = .next
    { s with
      acc := BitVec.ofNat 4 ((s.acc.toNat + k.toNat) % 16)
      c := decide (s.acc.toNat + k.toNat > 15)
      z := decide ((s.acc.toNat + k.toNat) % 16 = 0) }

/-- R92: SUB writes `(ACC - k) mod 16` in two's-complement wrap and the flags of R90, and nothing else. -/
def Obligations.SubWritesDifferenceAndFlags : Prop :=
  (∀ k : Nibble, decode (0x2#4 ++ k) = .sub k) ∧
  ∀ (k : Nibble) (s : State), exec (.sub k) s = .next
    { s with
      acc := BitVec.ofNat 4
        (if (s.acc.toNat : Int) - k.toNat < 0 then ((s.acc.toNat : Int) - k.toNat + 16) % 16
          else ((s.acc.toNat : Int) - k.toNat) % 16).toNat
      c := decide ((s.acc.toNat : Int) - k.toNat > 15 ∨ (s.acc.toNat : Int) - k.toNat < 0)
      z := decide (((s.acc.toNat : Int) - k.toNat) % 16 = 0) }

/-- After SUB, `C` is the borrow `ACC < k` and `Z` is `ACC = k` (the spec's inference in R92). -/
def Obligations.SubFlagsCompareAccWithOperand : Prop :=
  ∀ (k : Nibble) (s : State), ∃ t, exec (.sub k) s = .next t ∧ t.c = decide (s.acc.toNat < k.toNat) ∧
    t.z = decide (s.acc = k)

/-- After every ADD and SUB, `Z` is set exactly when the new `ACC` is 0 (the spec's inference in R90). -/
def Obligations.ZeroFlagMeansZeroAcc : Prop :=
  (∀ (k : Nibble) (s : State), ∃ t, exec (.add k) s = .next t ∧ (t.z = true ↔ t.acc = 0)) ∧
  ∀ (k : Nibble) (s : State), ∃ t, exec (.sub k) s = .next t ∧ (t.z = true ↔ t.acc = 0)

/-- For `k` in 1 to 15, `SUB #k` and `ADD #(16 - k)` give the same `ACC` and the opposite `C` (the spec's inference in R93). -/
def Obligations.SubIsAddOfComplementButForCarry : Prop :=
  ∀ (k : Nibble) (s : State), k ≠ 0 → ∃ t u, exec (.sub k) s = .next t ∧
    exec (.add (BitVec.ofNat 4 (16 - k.toNat))) s = .next u ∧ t.acc = u.acc ∧ t.c = !u.c

/-! ### Control transfer -/

/-- R100: JMP sets `PC` to its zero-extended operand, whatever `PC` was, and writes nothing else; a JMP to itself keeps `PC`
there for ever. -/
def Obligations.JumpSetsPcToOperand : Prop :=
  (∀ k : Nibble, decode (0x3#4 ++ k) = .jmp k) ∧
  (∀ (k : Nibble) (s : State), exec (.jmp k) s = .next { s with pc := BitVec.ofNat 8 k.toNat }) ∧
  (∀ (k : Nibble) (s : State), Fetches s (0x3#4 ++ k) →
    ∃ t, step s = .next t ∧ t.pc.toNat = k.toNat ∧ SameData s t ∧ SameMemories s t) ∧
  ∀ (n : Nat) (k : Nibble) (s : State), s.pc.toNat = k.toNat → s.im.read k.toNat = 0x3#4 ++ k →
    ∃ t, core.run n s = .next t ∧ t.pc = s.pc ∧ SameData s t ∧ SameMemories s t

/-- A JMP to itself never halts: after any steps at all the state is as it was and RUNNING is true (that a step sets RUNNING
is the spec's decision D4, log 3). -/
def Obligations.SelfJumpNeverHalts : Prop :=
  ∀ (n : Nat) (k : Nibble) (s : State), s.pc.toNat = k.toNat → s.im.read k.toNat = 0x3#4 ++ k →
    core.run (n + 1) s = .next { s with running := true }

/-- JMP is the only instruction that moves the PC; the fetch has advanced it before (R101). -/
def Obligations.OnlyJumpWritesPc : Prop :=
  ∀ (i : Instr) (s t : State), exec i s = .next t → t.pc ≠ s.pc → ∃ k, i = .jmp k

/-- Where a step takes the PC: it stays at 255, or advances by one, or goes to one of the addresses 0 to 15; so address 255
is reached only from 254 (or by a step that began there), and 16 to 254 only by falling through (R58, R68, R100, R101). -/
def Obligations.StepMovesPcByOneOrJumps : Prop :=
  ∀ s t : State, step s = .next t →
    ((s.pc = 255 ∧ t.pc = 255) ∨ (s.pc ≠ 255 ∧ t.pc.toNat = s.pc.toNat + 1) ∨ (s.pc ≠ 255 ∧ t.pc.toNat ≤ 15)) ∧
    (t.pc = 255 → s.pc = 254 ∨ s.pc = 255)

/-! ### The step -/

/-- R68: the boundary guard is true exactly when `PC = 255`, and such a step writes only `RUNNING <- false`. -/
def Obligations.GuardHaltsExactlyAt255 : Prop :=
  (∀ s : State, boundaryGuard s.pc.toNat = true ↔ s.pc = 255) ∧
  ∀ s : State, s.pc = 255 → step s = .next { s with running := false }

/-- Once `PC = 255`, every further step halts again and leaves the state (the spec's inference in R68 and R137). -/
def Obligations.HaltedCoreStaysHalted : Prop :=
  ∀ (n : Nat) (s : State), s.pc = 255 → core.run (n + 1) s = .next { s with running := false }

/-- The word at address 255 is never executed: a step does the same whatever stands there (the spec's inference in R68). -/
def Obligations.LastWordIsNeverExecuted : Prop :=
  ∀ (s t : State) (m : Memory 8), (∀ a, a < 255 → m.read a = s.im.read a) → step s = .next t →
    step { s with im := m } = .next { t with im := m }

/-- Below 255 a step runs the decoded word: exec of the instruction at `PC`, on the state with `PC` advanced and RUNNING set
(R43, R67, R71; that the step sets RUNNING is the spec's decision D4, log 3). -/
def Obligations.StepRunsDecodedInstruction : Prop :=
  ∀ s : State, s.pc ≠ 255 →
    step s = exec (decode (s.im.read s.pc.toNat)) { s with pc := s.pc + 1, running := true }

/-- No handler fails and no step stops: exec and step always answer a next state (R71, R113). -/
def Obligations.NothingFaultsOrRefuses : Prop :=
  (∀ (i : Instr) (s : State), ∃ t, exec i s = .next t) ∧ ∀ s : State, StepSafe s

/-- The fetch access, as R43 has it: at an address of 256 or more it halts and then reports; below, it reads the word and
advances `PC` mod 256; and the core's own fetch, at its 8-bit `PC`, always reads (C1, log 4). -/
def Obligations.FetchReadsAndAdvances : Prop :=
  (∀ (pc : Nat) (s : State), pc ≥ 256 → fetchAt pc s = .outOfRange pc { s with running := false }) ∧
  (∀ (pc : Nat) (s : State), pc < 256 →
    fetchAt pc s = .fetched (s.im.read pc) { s with pc := BitVec.ofNat 8 ((pc + 1) % 256) }) ∧
  ∀ s : State, fetch s = .fetched (s.im.read s.pc.toNat) { s with pc := s.pc + 1 }

/-- A step ends with RUNNING false exactly when it began with `PC = 255` (R137; that a step sets RUNNING is decision D4). -/
def Obligations.StepHaltsOnlyAt255 : Prop :=
  ∀ s t : State, step s = .next t → (t.running = false ↔ s.pc = 255)

/-- Straight-line execution (R138): with no JMP among the words before address `n`, `n` steps from `PC = 0` lead to
`PC = n`, and with no JMP before address 255 the 256th step halts there. -/
def Obligations.StraightLineAdvancesToHalt : Prop :=
  (∀ (n : Nat) (s : State), n ≤ 255 → s.pc = 0 → (∀ a, a < n → opcodeField (s.im.read a) ≠ 3) →
    ∃ t, core.run n s = .next t ∧ t.pc.toNat = n) ∧
  ∀ s : State, s.pc = 0 → (∀ a, a < 255 → opcodeField (s.im.read a) ≠ 3) →
    ∃ t, core.run 256 s = .next t ∧ t.pc = 255 ∧ t.running = false

/-- Flags and data memory influence nothing (R22, R23, R42, R93), and neither does RUNNING: two states that agree on `PC`,
`ACC` and instruction memory step to states that agree on them and on RUNNING. That a step does not test RUNNING, and leaves
the same RUNNING whatever it was before, is the spec's decision D4 (log 3). -/
def Obligations.StepIgnoresFlagsAndDataMemory : Prop :=
  ∀ s s' t : State, s'.pc = s.pc → s'.acc = s.acc → s'.im = s.im → step s = .next t →
    ∃ t', step s' = .next t' ∧ t'.pc = t.pc ∧ t'.acc = t.acc ∧ t'.running = t.running ∧ t'.im = t.im

/-! ### Frames -/

/-- What NOP and the twelve unmapped codes leave: everything. -/
def Obligations.NoopFrame : Prop :=
  ∀ (i : Instr) (s t : State), i.opcode = 0 ∨ 4 ≤ i.opcode.toNat → exec i s = .next t →
    t.pc = s.pc ∧ SameData s t ∧ t.running = s.running ∧ SameMemories s t

/-- What ADD and SUB leave: everything but `ACC`, `C` and `Z`. -/
def Obligations.ArithmeticFrame : Prop :=
  ∀ (k : Nibble) (s t : State), exec (.add k) s = .next t ∨ exec (.sub k) s = .next t →
    t.pc = s.pc ∧ t.running = s.running ∧ SameMemories s t

/-- What JMP leaves: everything but `PC`. -/
def Obligations.JumpFrame : Prop :=
  ∀ (k : Nibble) (s t : State), exec (.jmp k) s = .next t →
    SameData s t ∧ t.running = s.running ∧ SameMemories s t

/-- No instruction writes a memory or RUNNING (R24, R41, R42). -/
def Obligations.InstructionsKeepMemoriesAndRunning : Prop :=
  ∀ (i : Instr) (s t : State), exec i s = .next t → SameMemories s t ∧ t.running = s.running

/-- `ACC`, `C` and `Z` change only by POWER_ON, by RESET, or by a STEP that executes an ADD or a SUB (R21, R22, R23). -/
def Obligations.DataChangesOnlyByAddSubOrReset : Prop :=
  ∀ (op : HostOp) (s t : State) (r : HostResult), transact op s = .next (t, r) → ¬ SameData s t →
    op = .powerOn ∨ op = .reset ∨
      (op = .step ∧ s.pc ≠ 255 ∧
        (opcodeField (s.im.read s.pc.toNat) = 1 ∨ opcodeField (s.im.read s.pc.toNat) = 2))

/-! ### Host operations -/

/-- The host writes `PC`, `ACC`, `C` and `Z` only by POWER_ON and RESET: LOAD, STOP and INSPECT leave them (R7, R46, R51,
R72; the list of six operations is the spec's decision D2, log 17). -/
def Obligations.HostWritesRegistersOnlyByReset : Prop :=
  ∀ (op : HostOp) (s t : State) (r : HostResult), transact op s = .next (t, r) → op ≠ .step → op ≠ .powerOn →
    op ≠ .reset → t.pc = s.pc ∧ SameData s t

/-- R44: LOAD of at most 256 bytes puts byte `i` at address `i` and zero at the rest, whatever instruction memory held. -/
def Obligations.LoadOverwritesInstructionMemory : Prop :=
  ∀ bytes : List Byte, bytes.length ≤ 256 → ∀ s : State, ∃ t, load bytes s = (t, .ok) ∧
    (∀ a, a < 256 → t.im.read a = if h : a < bytes.length then bytes[a] else 0) ∧
    ∀ s' : State, (load bytes s').1.im = t.im

/-- R45: LOAD of more than 256 bytes fails with CapacityExceeded and changes no state. -/
def Obligations.LoadTooLongChangesNothing : Prop :=
  ∀ (bytes : List Byte) (s : State), 256 < bytes.length → ∃ n, load bytes s = (s, .error (.capacityExceeded n))

/-- LOAD keeps everything but instruction memory, whether it succeeds or fails, and the step after a LOAD fetches the loaded
word at the unchanged `PC` (R46, R57; that a LOAD may stand between two steps is decision D5). -/
def Obligations.LoadKeepsRegistersAndFeedsNextStep : Prop :=
  (∀ (bytes : List Byte) (s : State), (load bytes s).1.pc = s.pc ∧ SameData s (load bytes s).1 ∧
    (load bytes s).1.running = s.running ∧ (load bytes s).1.dm = s.dm) ∧
  ∀ (bytes : List Byte) (s : State), bytes.length ≤ 256 → s.pc ≠ 255 →
    ∃ t, startStep (load bytes s).1 = .fetched ((bytes[s.pc.toNat]?).getD 0) t

/-- After LOAD of a program, INSPECT returns exactly the program and then all zeros (S1 of 95_test_vectors.md). -/
def Obligations.InspectReturnsLoadedProgram : Prop :=
  ∀ (bytes : List Byte) (s : State), bytes.length ≤ 256 →
    inspect (load bytes s).1 0 bytes.length = .imWords bytes ∧
    (bytes.length < 256 → inspect (load bytes s).1 bytes.length (256 - bytes.length) =
      .imWords (List.replicate (256 - bytes.length) 0)) ∧
    (bytes.length = 256 → inspect (load bytes s).1 bytes.length (256 - bytes.length) = .dmWords [])

/-- R48: INSPECT below 256 returns instruction words in increasing address order, cut at the end of the region. -/
def Obligations.InspectInstructionMemory : Prop :=
  ∀ (s : State) (address length : Nat), address < 256 →
    ∃ ws, inspect s address length = .imWords ws ∧ ws.length = min length (256 - address) ∧
      ∀ i, i < ws.length → ws[i]? = some (s.im.read (address + i))

/-- R49: INSPECT in 256 to 319 returns data words, cut at the end of the region; four zeros from a fresh machine. -/
def Obligations.InspectDataMemory : Prop :=
  (∀ (s : State) (address length : Nat), 256 ≤ address → address < 320 →
    ∃ ws, inspect s address length = .dmWords ws ∧ ws.length = min length (320 - address) ∧
      ∀ i, i < ws.length → ws[i]? = some (s.dm.read (address - 256 + i))) ∧
  ∀ s : State, inspect (powerOn s) 0x100 0x04 = .dmWords [0, 0, 0, 0]

/-- R50: INSPECT at 320 or above fails with AddressOutOfRange, changes no state and does not look at the length. -/
def Obligations.InspectOutsideBothRegions : Prop :=
  ∀ (s : State) (address : Nat), 320 ≤ address → ∃ e, ∀ length,
    transact (.inspect address length) s = .next (s, .error (.addressOutOfRange e))

/-- R51: INSPECT changes no state, and repeating it after any operation but POWER_ON and LOAD returns the same words. -/
def Obligations.InspectIsReadOnlyAndRepeatable : Prop :=
  (∀ (s : State) (address length : Nat),
    transact (.inspect address length) s = .next (s, inspect s address length)) ∧
  ∀ (op : HostOp) (s t : State) (r : HostResult), transact op s = .next (t, r) → op ≠ .powerOn →
    (∀ bytes, op ≠ .load bytes) → ∀ address length : Nat, inspect t address length = inspect s address length

/-- STOP clears RUNNING and nothing else, is idempotent, and does not change what the next step does (R72; that the step
after a STOP runs is the spec's decision D4, log 3). -/
def Obligations.StopClearsRunningOnly : Prop :=
  ∀ s : State, stop s = { s with running := false } ∧ stop (stop s) = stop s ∧ step (stop s) = step s

/-- R41: instruction memory is written only by POWER_ON and LOAD. -/
def Obligations.ImWrittenOnlyByPowerOnAndLoad : Prop :=
  ∀ (op : HostOp) (s t : State) (r : HostResult), transact op s = .next (t, r) →
    (∃ a, t.im.read a ≠ s.im.read a) → op = .powerOn ∨ ∃ bytes, op = .load bytes

/-- Data memory is written only by POWER_ON (R42). -/
def Obligations.DmWrittenOnlyByPowerOn : Prop :=
  ∀ (op : HostOp) (s t : State) (r : HostResult), transact op s = .next (t, r) →
    (∃ a, t.dm.read a ≠ s.dm.read a) → op = .powerOn

/-- After every sequence of host operations from power-on, every word of data memory is zero (R32). -/
def Obligations.DataMemoryIsAlwaysZero : Prop :=
  ∀ (ops : List HostOp) (t : State) (rs : List HostResult), runOps ops State.reset = .next (t, rs) →
    ∀ a, t.dm.read a = 0

/-- No sequence of host operations stops the machine: each gives one result, from every state (R6, R115, R119). -/
def Obligations.HostRunsNeverStop : Prop :=
  ∀ (ops : List HostOp) (s : State), ∃ t rs, runOps ops s = .next (t, rs) ∧ rs.length = ops.length

/-- An operation that returns an error has changed nothing (R45, R50, R115: STEP's own error never occurs). -/
def Obligations.ErrorsLeaveTheState : Prop :=
  ∀ (op : HostOp) (s t : State) (e : HostError), transact op s = .next (t, .error e) → t = s

/-- STEP as a host operation is the machine's step, and its result is always OK (R67, R113). -/
def Obligations.HostStepIsStep : Prop :=
  ∀ s : State, ∃ t, step s = .next t ∧ transact .step s = .next (t, .ok)

/-- The phases GUARD, FETCH, DECODE, EXECUTE end in IDLE with the state of the atomic step (R70; the phase names and IDLE are
the spec's decision D1, log 12). -/
def Obligations.PhasesRefineStep : Prop :=
  ∀ s t : State, step s = .next t → runPhases 4 .guard s = (.idle .ok, t)

/-- The OPEN port widths, whatever they are, present every address up to 511 and every load length up to 511, so both regions,
the first address outside them and a 257-byte load can be asked for (decisions D9, D10, log 9). -/
def Obligations.PortsPresentEveryCase : Prop :=
  (∀ address length : Nat, address ≤ 511 → length ≤ 1 → inspectPresentable address length = true) ∧
  ∀ n : Nat, n ≤ 511 → loadPresentable n = true

/-! ### Assembly statements -/

/-- An assembler accepts exactly the statements R66 allows (the spec's decision D11, log 14). -/
def Obligations.AssemblerAcceptsWellFormedOnly : Prop :=
  ∀ (symbols : Symbols) (st : Stmt), (∃ w, assemble symbols st = .ok w) ↔ st.wellFormed symbols = true

/-- Every word's disassembly assembles back to it, and never needs `.word` (R66, the spec's decision D11, log 14). -/
def Obligations.DisassemblyAssemblesBack : Prop :=
  ∀ (symbols : Symbols) (w : Byte), assemble symbols (disassemble w) = .ok w ∧ ∀ n, disassemble w ≠ .word n

/-! ### The invariant -/

/-- The invariant holds at reset (R30, R32). -/
def Obligations.InvHoldsAtReset : Prop := Inv State.reset

/-- From every state that meets the invariant a step gives a state that meets it. -/
def Obligations.StepKeepsInv : Prop := ∀ s t : State, Inv s → step s = .next t → Inv t

/-- Every host operation keeps the invariant, LOAD of any bytes among them. -/
def Obligations.HostOperationsKeepInv : Prop :=
  ∀ (op : HostOp) (s t : State) (r : HostResult), Inv s → transact op s = .next (t, r) → Inv t
end

