-- ==== Sys2Proof/Laws/Memory.lean ====
section
/-!
SUPPORT. The memory operations: a read after a write, what a write leaves alone, and that every operation keeps the
canonical form.
-/

namespace Sys2Proof.Machine

variable {w : Nat}

@[simp] theorem Memory.read_nil (a : Nat) : Memory.read ([] : Memory w) a = 0 := rfl

@[simp] theorem Memory.read_cons (b : Nat) (v : BitVec w) (m : Memory w) (a : Nat) :
    Memory.read ((b, v) :: m) a = if b = a then v else m.read a := rfl

@[simp] theorem Memory.wfFrom_nil (lo cap : Nat) : Memory.wfFrom lo cap ([] : Memory w) = true := rfl

theorem Memory.wfFrom_cons {lo cap b : Nat} {v : BitVec w} {m : Memory w} :
    Memory.wfFrom lo cap ((b, v) :: m) = true ↔
      lo ≤ b ∧ b < cap ∧ v ≠ 0 ∧ Memory.wfFrom (b + 1) cap m = true := by
  simp [Memory.wfFrom, and_assoc]

theorem Memory.wfFrom_weaken {lo lo' cap : Nat} {m : Memory w} (h : Memory.wfFrom lo cap m = true) (hl : lo' ≤ lo) :
    Memory.wfFrom lo' cap m = true := by
  cases m with
  | nil => rfl
  | cons p m =>
    obtain ⟨h1, h2, h3, h4⟩ := Memory.wfFrom_cons.1 h
    exact Memory.wfFrom_cons.2 ⟨by omega, h2, h3, h4⟩

/-- Below its first possible address a canonical memory reads zero. -/
theorem Memory.read_below {lo cap a : Nat} {m : Memory w} (h : Memory.wfFrom lo cap m = true) (ha : a < lo) :
    m.read a = 0 := by
  induction m generalizing lo with
  | nil => rfl
  | cons p m ih =>
    obtain ⟨h1, -, -, h4⟩ := Memory.wfFrom_cons.1 h
    rw [Memory.read_cons, if_neg (by omega)]
    exact ih h4 (by omega)

/-- A write leaves every other address alone, in any list. -/
theorem Memory.read_write_other (m : Memory w) {a x : Nat} (v : BitVec w) (h : x ≠ a) :
    (m.write a v).read x = m.read x := by
  induction m with
  | nil => unfold Memory.write; split <;> simp [h.symm]
  | cons p m ih =>
    obtain ⟨b, u⟩ := p
    simp only [Memory.write]
    split
    · split <;> simp [h.symm]
    · split
      · next hab => subst hab; split <;> simp [h.symm]
      · simp [ih]

/-- A read after a write to the same address gives the word written. -/
theorem Memory.read_write_same {lo cap : Nat} {m : Memory w} (a : Nat) (v : BitVec w)
    (h : Memory.wfFrom lo cap m = true) : (m.write a v).read a = v := by
  induction m generalizing lo with
  | nil => unfold Memory.write; split <;> simp [*]
  | cons p m ih =>
    obtain ⟨b, u⟩ := p
    obtain ⟨h1, h2, h3, h4⟩ := Memory.wfFrom_cons.1 h
    simp only [Memory.write]
    split
    · next hab =>
      split
      · next hv => rw [Memory.read_below (Memory.wfFrom_cons.2 ⟨Nat.le_refl b, h2, h3, h4⟩) hab, hv]
      · simp
    · split
      · next hab =>
        split
        · next hv => rw [Memory.read_below h4 (by omega), hv]
        · simp
      · next hab => rw [Memory.read_cons, if_neg (Ne.symm hab)]; exact ih h4

theorem Memory.wfFrom_write {lo cap : Nat} {m : Memory w} {a : Nat} (v : BitVec w)
    (h : Memory.wfFrom lo cap m = true) (hlo : lo ≤ a) (hcap : a < cap) :
    Memory.wfFrom lo cap (m.write a v) = true := by
  induction m generalizing lo with
  | nil => unfold Memory.write; split <;> simp_all [Memory.wfFrom]
  | cons p m ih =>
    obtain ⟨b, u⟩ := p
    obtain ⟨h1, h2, h3, h4⟩ := Memory.wfFrom_cons.1 h
    simp only [Memory.write]
    split
    · next hab =>
      split
      · exact h
      · next hv => exact Memory.wfFrom_cons.2 ⟨hlo, hcap, hv, Memory.wfFrom_cons.2 ⟨by omega, h2, h3, h4⟩⟩
    · split
      · next hab =>
        split
        · exact Memory.wfFrom_weaken h4 (by omega)
        · next hv => exact Memory.wfFrom_cons.2 ⟨hlo, hcap, hv, hab ▸ h4⟩
      · exact Memory.wfFrom_cons.2 ⟨h1, h2, h3, ih h4 (by omega)⟩

/-- A write inside the capacity keeps the canonical form. -/
theorem Memory.wf_write {cap : Nat} {m : Memory w} {a : Nat} (v : BitVec w) (h : m.wf cap = true) (ha : a < cap) :
    (m.write a v).wf cap = true :=
  Memory.wfFrom_write v h (Nat.zero_le a) ha

theorem Memory.wfFrom_ofWords {cap : Nat} (a : Nat) (words : List (BitVec w)) (h : a + words.length ≤ cap) :
    Memory.wfFrom a cap (Memory.ofWords a words) = true := by
  induction words generalizing a with
  | nil => rfl
  | cons v rest ih =>
    simp only [List.length_cons] at h
    have hr := ih (a + 1) (by omega)
    simp only [Memory.ofWords]
    split
    · exact Memory.wfFrom_weaken hr (by omega)
    · next hv => exact Memory.wfFrom_cons.2 ⟨Nat.le_refl a, by omega, hv, hr⟩

/-- A memory made of at most `cap` words is in canonical form. -/
theorem Memory.wf_ofWords {cap : Nat} (words : List (BitVec w)) (h : words.length ≤ cap) :
    (Memory.ofWords 0 words).wf cap = true :=
  Memory.wfFrom_ofWords 0 words (by omega)

/-- What a memory made of words reads as: the words from `a` up, and zero elsewhere. -/
theorem Memory.read_ofWords (a : Nat) (words : List (BitVec w)) (x : Nat) :
    (Memory.ofWords a words).read x = if a ≤ x then (words[x - a]?).getD 0 else 0 := by
  induction words generalizing a with
  | nil => simp [Memory.ofWords]
  | cons v rest ih =>
    simp only [Memory.ofWords]
    rcases Nat.lt_trichotomy x a with h | h | h
    · split <;> simp [ih, show ¬ a + 1 ≤ x by omega, show ¬ a ≤ x by omega, show a ≠ x by omega]
    · subst h; split <;> simp [*]
    · obtain ⟨n, rfl⟩ : ∃ n, x = a + 1 + n := ⟨x - (a + 1), by omega⟩
      have e : a + 1 + n - a = n + 1 := by omega
      split <;> simp [ih, show a ≠ a + 1 + n by omega, show a ≤ a + 1 + n by omega, e]

/-- The length of a slice: cut at the capacity. -/
theorem Memory.length_slice (m : Memory w) (cap a len : Nat) : (m.slice cap a len).length = min (a + len) cap - a := by
  simp [Memory.slice]

/-- The words of a slice stand in increasing address order. -/
theorem Memory.getElem?_slice (m : Memory w) (cap a len i : Nat) (h : i < min (a + len) cap - a) :
    (m.slice cap a len)[i]? = some (m.read (a + i)) := by
  simp [Memory.slice, h]

end Sys2Proof.Machine
end

