-- ==== Sys2Proof/Laws/State.lean ====
section
/-!
SUPPORT. The fields of the state after each register update: one lemma per field per update.
-/

namespace Sys2Proof.Machine

@[simp] theorem State.setPc_pc (s : State) (v : Byte) : (s.setPc v).pc = v := rfl
@[simp] theorem State.setPc_acc (s : State) (v : Byte) : (s.setPc v).acc = s.acc := rfl
@[simp] theorem State.setPc_c (s : State) (v : Byte) : (s.setPc v).c = s.c := rfl
@[simp] theorem State.setPc_z (s : State) (v : Byte) : (s.setPc v).z = s.z := rfl
@[simp] theorem State.setPc_running (s : State) (v : Byte) : (s.setPc v).running = s.running := rfl
@[simp] theorem State.setPc_im (s : State) (v : Byte) : (s.setPc v).im = s.im := rfl
@[simp] theorem State.setPc_dm (s : State) (v : Byte) : (s.setPc v).dm = s.dm := rfl

@[simp] theorem State.setAcc_pc (s : State) (v : Nibble) : (s.setAcc v).pc = s.pc := rfl
@[simp] theorem State.setAcc_acc (s : State) (v : Nibble) : (s.setAcc v).acc = v := rfl
@[simp] theorem State.setAcc_c (s : State) (v : Nibble) : (s.setAcc v).c = s.c := rfl
@[simp] theorem State.setAcc_z (s : State) (v : Nibble) : (s.setAcc v).z = s.z := rfl
@[simp] theorem State.setAcc_running (s : State) (v : Nibble) : (s.setAcc v).running = s.running := rfl
@[simp] theorem State.setAcc_im (s : State) (v : Nibble) : (s.setAcc v).im = s.im := rfl
@[simp] theorem State.setAcc_dm (s : State) (v : Nibble) : (s.setAcc v).dm = s.dm := rfl

@[simp] theorem State.setCZ_pc (s : State) (cv zv : Bool) : (s.setCZ cv zv).pc = s.pc := rfl
@[simp] theorem State.setCZ_acc (s : State) (cv zv : Bool) : (s.setCZ cv zv).acc = s.acc := rfl
@[simp] theorem State.setCZ_c (s : State) (cv zv : Bool) : (s.setCZ cv zv).c = cv := rfl
@[simp] theorem State.setCZ_z (s : State) (cv zv : Bool) : (s.setCZ cv zv).z = zv := rfl
@[simp] theorem State.setCZ_running (s : State) (cv zv : Bool) : (s.setCZ cv zv).running = s.running := rfl
@[simp] theorem State.setCZ_im (s : State) (cv zv : Bool) : (s.setCZ cv zv).im = s.im := rfl
@[simp] theorem State.setCZ_dm (s : State) (cv zv : Bool) : (s.setCZ cv zv).dm = s.dm := rfl

@[simp] theorem State.setRunning_pc (s : State) (v : Bool) : (s.setRunning v).pc = s.pc := rfl
@[simp] theorem State.setRunning_acc (s : State) (v : Bool) : (s.setRunning v).acc = s.acc := rfl
@[simp] theorem State.setRunning_c (s : State) (v : Bool) : (s.setRunning v).c = s.c := rfl
@[simp] theorem State.setRunning_z (s : State) (v : Bool) : (s.setRunning v).z = s.z := rfl
@[simp] theorem State.setRunning_running (s : State) (v : Bool) : (s.setRunning v).running = v := rfl
@[simp] theorem State.setRunning_im (s : State) (v : Bool) : (s.setRunning v).im = s.im := rfl
@[simp] theorem State.setRunning_dm (s : State) (v : Bool) : (s.setRunning v).dm = s.dm := rfl

@[simp] theorem State.setIm_pc (s : State) (m : Memory 8) : (s.setIm m).pc = s.pc := rfl
@[simp] theorem State.setIm_acc (s : State) (m : Memory 8) : (s.setIm m).acc = s.acc := rfl
@[simp] theorem State.setIm_c (s : State) (m : Memory 8) : (s.setIm m).c = s.c := rfl
@[simp] theorem State.setIm_z (s : State) (m : Memory 8) : (s.setIm m).z = s.z := rfl
@[simp] theorem State.setIm_running (s : State) (m : Memory 8) : (s.setIm m).running = s.running := rfl
@[simp] theorem State.setIm_im (s : State) (m : Memory 8) : (s.setIm m).im = m := rfl
@[simp] theorem State.setIm_dm (s : State) (m : Memory 8) : (s.setIm m).dm = s.dm := rfl

end Sys2Proof.Machine
end

