-- ==== Sys2Proof/Laws/Step.lean ====
section
/-!
SUPPORT. What the beginning of a step can do, said once: it is halted by the guard at `PC = 255`, and otherwise it has
fetched the word at `PC`; it never fails. And what the four handlers write.
-/

namespace Sys2Proof.Machine

/-- With an 8-bit `PC` the guard is true exactly at 255. -/
theorem boundaryGuard_iff (p : Byte) : boundaryGuard p.toNat = true ↔ p = 255 := by
  revert p; decide

theorem boundaryGuard_false {p : Byte} (h : p ≠ 255) : boundaryGuard p.toNat = false :=
  Bool.eq_false_iff.2 fun hg => h ((boundaryGuard_iff p).1 hg)

/-- The address after an 8-bit address, mod 256. -/
theorem ofNat_next (p : Byte) : BitVec.ofNat 8 ((p.toNat + 1) % 256) = p + 1 := by
  revert p; decide

/-- The fetch access of the core reads the word at `PC` and advances `PC`; its bounds check never fires. -/
theorem fetch_eq (s : State) : fetch s = .fetched (s.im.read s.pc.toNat) (s.setPc (s.pc + 1)) := by
  have h : ¬ s.pc.toNat ≥ Config.imWords := by simpa using s.pc.isLt
  simp only [fetch, fetchAt, if_neg h, ofNat_next]

/-- At `PC = 255` a step is halted. -/
theorem startStep_halted {s : State} (h : s.pc = 255) : startStep s = .halted (s.setRunning false) := by
  simp only [startStep, State.setRunning_pc, (boundaryGuard_iff s.pc).2 h, if_true]
  rfl

/-- Anywhere else a step has fetched the word at `PC`. -/
theorem startStep_fetched {s : State} (h : s.pc ≠ 255) :
    startStep s = .fetched (s.im.read s.pc.toNat) ((s.setRunning true).setPc (s.pc + 1)) := by
  simp only [startStep, State.setRunning_pc, boundaryGuard_false h, fetch_eq]
  rfl

/-- What the flag rule and the accumulator write leave (R90 to R92). -/
theorem writeResult_eq (r : Int) (s : State) :
    writeResult r s = { s with acc := low4 r, c := carryOf r, z := zeroOf r } := rfl

/-- A placed word is the one the next step fetches, in any state whose instruction memory is canonical. -/
theorem startStep_placeWord {s : State} (hm : Memory.wf Config.imWords s.im = true) (w : Byte) :
    ∃ t, startStep (placeWord s w) = .fetched w t := by
  unfold placeWord
  split
  · refine ⟨_, (startStep_fetched (s := (s.setPc 0).setIm (s.im.write 0 w)) (by simp)).trans
      (congrArg₂ StepStart.fetched ?_ rfl)⟩
    exact Memory.read_write_same 0 w hm
  · next h =>
    have hp : s.pc ≠ 255 := fun e => h ((boundaryGuard_iff s.pc).2 e)
    refine ⟨_, (startStep_fetched (s := s.setIm (s.im.write s.pc.toNat w)) hp).trans
      (congrArg₂ StepStart.fetched ?_ rfl)⟩
    exact Memory.read_write_same _ w hm

/-- Every meaning answers the next state of its operation code's handler. -/
theorem exec_eq_runHandler (i : Instr) (s : State) :
    exec i s = .next (runHandler (dispatch i.opcode) i.operand s) := by
  cases i <;> rfl

/-- A handler writes `PC`, `ACC`, `C` and `Z` at most. -/
theorem runHandler_frame (h : Handler) (k : Nibble) (s : State) :
    (runHandler h k s).running = s.running ∧ (runHandler h k s).im = s.im ∧ (runHandler h k s).dm = s.dm := by
  cases h <;> exact ⟨rfl, rfl, rfl⟩

end Sys2Proof.Machine
end

