-- ==== Sys2Proof/Laws/HostOps.lean ====
section
/-!
SUPPORT. One lemma per case of each host operation, and how a run of steps goes on.
-/

namespace Sys2Proof.Machine

theorem load_fits {bytes : List Byte} (h : bytes.length ≤ 256) (s : State) :
    load bytes s = (s.setIm (Memory.ofWords 0 bytes), .ok) :=
  if_neg (Nat.not_lt.2 h)

theorem load_exceeds {bytes : List Byte} (h : 256 < bytes.length) (s : State) :
    load bytes s = (s, .error (.capacityExceeded bytes.length)) :=
  if_pos h

theorem inspect_im {s : State} {a : Nat} (h : a < 256) (length : Nat) :
    inspect s a length = .imWords (s.im.slice 256 a length) :=
  if_pos h

theorem inspect_dm {s : State} {a : Nat} (h : 256 ≤ a) (h' : a < 320) (length : Nat) :
    inspect s a length = .dmWords (s.dm.slice 64 (a - 256) length) :=
  (if_neg (Nat.not_lt.2 h)).trans (if_pos h')

theorem inspect_outside {s : State} {a : Nat} (h : 320 ≤ a) (length : Nat) :
    inspect s a length = .error (.addressOutOfRange a) :=
  (if_neg (Nat.not_lt.2 (Nat.le_trans (by decide) h))).trans (if_neg (Nat.not_lt.2 h))

/-- A run goes on from the state its first step answers. -/
theorem run_succ_of_next {n : Nat} {s t : State} (h : step s = .next t) : core.run (n + 1) s = core.run n t := by
  have hc : core.step s = .next t := h
  simp only [Host.Core.run, hc]

/-- A run of no operations gives no results. -/
@[simp] theorem runOps_nil (s : State) : runOps [] s = .next (s, []) := rfl

/-- A run is its first operation and then the rest, from the state the first one answers. -/
theorem runOps_cons_of_next {op : HostOp} {ops : List HostOp} {s t u : State} {r : HostResult} {rs : List HostResult}
    (h : transact op s = .next (t, r)) (hs : runOps ops t = .next (u, rs)) :
    runOps (op :: ops) s = .next (u, r :: rs) := by
  simp only [runOps, h, hs]

end Sys2Proof.Machine
end

