-- ==== Sys2Proof/Laws/PerInstr.lean ====
section
/-!
SUPPORT. Statements made for every instruction, one lemma per constructor. Family EncodeFields: the two fields of an
instruction's word are its operation code and its operand (spec/30_encoding.md R60).
-/

namespace Sys2Proof.Laws.EncodeFields

/-- The encoded word of `i` holds `i`'s operation code in bits 7:4 and its operand in bits 3:0 (R60). -/
def Statement (i : Instr) : Prop := opcodeField (encode i) = i.opcode ∧ operandField (encode i) = i.operand

/-- Taking a word apart gives back the two nibbles it was put together from. -/
theorem fields_append (a b : Nibble) : opcodeField (a ++ b) = a ∧ operandField (a ++ b) = b := by
  revert a b; decide

theorem nop (k : Nibble) : Statement (.nop k) := fields_append _ _

theorem add (k : Nibble) : Statement (.add k) := fields_append _ _

theorem sub (k : Nibble) : Statement (.sub k) := fields_append _ _

theorem jmp (k : Nibble) : Statement (.jmp k) := fields_append _ _

theorem xnop4 (k : Nibble) : Statement (.xnop4 k) := fields_append _ _

theorem xnop5 (k : Nibble) : Statement (.xnop5 k) := fields_append _ _

theorem xnop6 (k : Nibble) : Statement (.xnop6 k) := fields_append _ _

theorem xnop7 (k : Nibble) : Statement (.xnop7 k) := fields_append _ _

theorem xnop8 (k : Nibble) : Statement (.xnop8 k) := fields_append _ _

theorem xnop9 (k : Nibble) : Statement (.xnop9 k) := fields_append _ _

theorem xnopA (k : Nibble) : Statement (.xnopA k) := fields_append _ _

theorem xnopB (k : Nibble) : Statement (.xnopB k) := fields_append _ _

theorem xnopC (k : Nibble) : Statement (.xnopC k) := fields_append _ _

theorem xnopD (k : Nibble) : Statement (.xnopD k) := fields_append _ _

theorem xnopE (k : Nibble) : Statement (.xnopE k) := fields_append _ _

theorem xnopF (k : Nibble) : Statement (.xnopF k) := fields_append _ _

end Sys2Proof.Laws.EncodeFields
end

