-- ==== Sys2Proof/Tests/Slice0.lean ====
section
/-!
SUPPORT. Tests of single steps against the tables of spec/95_test_vectors.md, words written out from the encodings, smoke
tests of the well-formedness checks, and a witness for the hypotheses of every statement that has any.
-/

namespace Sys2Proof.Tests

open Sys2Proof Sys2Proof.Machine Sys2Proof.Safety

/-- A state with one word at `PC`; data memory as at reset. -/
def st (pc : Byte) (acc : Nibble) (c z running : Bool) (w : Byte) : State :=
  { pc := pc, acc := acc, c := c, z := z, running := running, im := Memory.write [] pc.toNat w, dm := [] }

/-- The status outputs after one step, as 95_test_vectors.md writes a state: `PC, ACC, C, Z, RUNNING`. -/
def after (s : State) : Option Status :=
  match step s with
  | .next t => some (status t)
  | .fault _ => none
  | .refused _ => none

/-! ### Words, decoding, well-formedness -/

/-- R60, R63: every constructor's word written out bit by bit. -/
theorem test_decode_core : decode 0b00000111 = .nop 7 ∧ decode 0b00010111 = .add 7 ∧ decode 0b00100101 = .sub 5 ∧
    decode 0b00110010 = .jmp 2 := by decide

theorem test_decode_unmapped : decode 0b01000011 = .xnop4 3 ∧ decode 0b01010001 = .xnop5 1 ∧ decode 0b01100010 = .xnop6 2 ∧
    decode 0b01110100 = .xnop7 4 ∧ decode 0b10001000 = .xnop8 8 ∧ decode 0b10011111 = .xnop9 15 ∧
    decode 0b10100000 = .xnopA 0 ∧ decode 0b10110101 = .xnopB 5 ∧ decode 0b11001010 = .xnopC 10 ∧
    decode 0b11010110 = .xnopD 6 ∧ decode 0b11101001 = .xnopE 9 ∧ decode 0b11111111 = .xnopF 15 := by decide

theorem test_encode : encode (.add 7) = 0x17 ∧ encode (.jmp 15) = 0x3F ∧ encode (.xnopA 3) = 0xA3 := by decide

theorem test_decodeBytes : decodeBytes [] = .error .noWord ∧ decodeBytes [0x25, 0x15] = .ok (.sub 5, [0x15]) := ⟨rfl, rfl⟩

theorem test_decodeTableWord : decodeTableWord 8 0x32 = some (.jmp 2) ∧ decodeTableWord 8 0xF0 = some (.xnopF 0) ∧
    decodeTableWord 16 0x32 = none ∧ decodeTableWord 8 0x132 = none := by decide

/-- R61, R64: every instruction is well-formed, the highest operand included; no Instr is ill-formed (log 8). -/
theorem test_wellFormed : Instr.WellFormed (.nop 0) ∧ Instr.WellFormed (.jmp 15) ∧ Instr.WellFormed (.xnopF 15) := by decide

/-- R66: one ill-formed statement for each check of the assembler, each refused. -/
theorem test_illFormed_refused :
    Stmt.wellFormed [] (.nopImm 16) = false ∧ Stmt.wellFormed [] (.add 16) = false ∧ Stmt.wellFormed [] (.sub 16) = false ∧
    Stmt.wellFormed [] (.jmp (.address 16)) = false ∧ Stmt.wellFormed [] (.jmp (.label "far")) = false ∧
    Stmt.wellFormed [] (.xnop 3 0) = false ∧ Stmt.wellFormed [] (.xnop 16 0) = false ∧
    Stmt.wellFormed [] (.xnop 4 16) = false ∧ Stmt.wellFormed [] (.word 256) = false :=
  ⟨rfl, rfl, rfl, rfl, rfl, rfl, rfl, rfl, rfl⟩

theorem test_assemble_refuses_by_name :
    assemble [] (.jmp (.address 16)) = .error (.targetOutOfRange 16) ∧
    assemble [] (.jmp (.label "far")) = .error (.undefinedLabel "far") ∧
    assemble [] (.xnop 3 0) = .error (.codeOutOfRange 3) ∧ assemble [] (.add 16) = .error (.operandOutOfRange 16) ∧
    assemble [] (.word 256) = .error (.wordOutOfRange 256) := ⟨rfl, rfl, rfl, rfl, rfl⟩

/-- R66 and the listing of P4: words of a program with a label. -/
theorem test_assembleProgram :
    assembleProgram [⟨none, .sub 5⟩, ⟨none, .jmp (.label "on")⟩, ⟨none, .add 1⟩, ⟨some "on", .xnop 4 7⟩] =
      .ok [0x25, 0x33, 0x11, 0x47] := by decide

theorem test_duplicate_label_refused :
    assembleProgram [⟨some "on", .nop⟩, ⟨some "on", .nop⟩] = .error (.duplicateLabel "on") := by decide

theorem test_disassemble : disassemble 0x00 = .nop ∧ disassemble 0x07 = .nopImm 7 ∧ disassemble 0x36 = .jmp (.address 6) ∧
    disassemble 0xA3 = .xnop 10 3 := by decide

theorem test_text : Stmt.text (.add 7) = "ADD #7" ∧ Stmt.text (.xnop 4 3) = "XNOP 4, #3" ∧
    Stmt.text (.word 0x4f) = ".word 0x4f" := by decide

/-! ### Steps, one row of 95_test_vectors.md each -/

/-- 2.1. -/
theorem test_nop : after (st 4 9 true false true 0x07) = some ⟨5, 9, true, false, true⟩ := by decide

/-- 2.1: word 0x43 is an unmapped code, not an add. -/
theorem test_xnop4 : after (st 0 3 false false true 0x43) = some ⟨1, 3, false, false, true⟩ := by decide

/-- 2.1: the last word a step can fetch. -/
theorem test_xnopF_at_254 : after (st 254 7 true false true 0xFF) = some ⟨255, 7, true, false, true⟩ := by decide

theorem test_xnop8 : after (st 100 0 false true true 0x80) = some ⟨101, 0, false, true, true⟩ := by decide

/-- 2.2: carry and zero together. -/
theorem test_add_wraps_to_zero : after (st 0 9 false false true 0x17) = some ⟨1, 0, true, true, true⟩ := by decide

/-- 2.2: the largest sum. -/
theorem test_add_largest : after (st 0 15 false false true 0x1F) = some ⟨1, 14, true, false, true⟩ := by decide

/-- 2.2: the R92 example, a borrow. -/
theorem test_sub_borrows : after (st 0 3 false false true 0x25) = some ⟨1, 14, true, false, true⟩ := by decide

/-- 2.2: `SUB #0` clears C. -/
theorem test_sub_zero_clears_carry : after (st 0 0 true false true 0x20) = some ⟨1, 0, false, true, true⟩ := by decide

/-- 2.5. -/
theorem test_jmp : after (st 9 2 false true true 0x32) = some ⟨2, 2, false, true, true⟩ := by decide

/-- 2.5: the step that would have reached 255 jumps away. -/
theorem test_jmp_from_254 : after (st 254 1 true true true 0x35) = some ⟨5, 1, true, true, true⟩ := by decide

/-- 2.6: the guard at 255, without a fetch, even over a JMP. -/
theorem test_guard : after (st 255 4 true false true 0x30) = some ⟨255, 4, true, false, false⟩ := by decide

/-- 2.6: a step after STOP runs. -/
theorem test_step_after_stop : after (stop (st 3 0 false false true 0x00)) = some ⟨4, 0, false, false, true⟩ := by decide

/-- S5, in the wider reading of R43: a fetch at 256 halts, then reports. -/
theorem test_fetch_at_256 : fetchAt 256 (st 0 0 false false true 0x11) =
    .outOfRange 256 (st 0 0 false false false 0x11) := by decide

/-- The table's rows run as the first instruction after reset: NOP, ADD, SUB, JMP and an unmapped code. -/
theorem test_withFetchWord : after (State.reset.withFetchWord 8 0x00) = some ⟨1, 0, false, false, true⟩ ∧
    after (State.reset.withFetchWord 8 0x15) = some ⟨1, 5, false, false, true⟩ ∧
    after (State.reset.withFetchWord 8 0x21) = some ⟨1, 15, true, false, true⟩ ∧
    after (State.reset.withFetchWord 8 0x3F) = some ⟨15, 0, false, false, true⟩ ∧
    after (State.reset.withFetchWord 8 0xC4) = some ⟨1, 0, false, false, true⟩ := by decide

/-- Log 7: at `PC = 255` the word is placed at the reset vector. -/
theorem test_withFetchWord_at_255 : after ((st 255 4 false false false 0x00).withFetchWord 8 0x11) =
    some ⟨1, 5, false, false, true⟩ := by decide

/-! ### Memory and host operations -/

theorem test_memory_is_host_cells : Memory 8 = List Host.Cell := rfl

theorem test_write_zero_unlists : Memory.write (Memory.write ([] : Memory 8) 7 0x11) 7 0 = [] ∧
    Memory.write (Memory.write ([] : Memory 8) 7 0x11) 3 0x22 = [(3, 0x22), (7, 0x11)] := by decide

/-- The wf check refuses a falling list, a listed zero, and an address past the capacity. -/
theorem test_wf_refuses : Memory.wf 256 ([(7, 1), (3, 1)] : Memory 8) = false ∧
    Memory.wf 256 ([(7, 0)] : Memory 8) = false ∧ Memory.wf 256 ([(256, 1)] : Memory 8) = false := by decide

/-- S6 and 2.7: LOAD does not reset; a short LOAD zero-fills. -/
theorem test_load : status (load [0x3F] (st 7 3 true false true 0x55)).1 = ⟨7, 3, true, false, true⟩ ∧
    inspect (load [0x3F] (st 7 3 true false true 0x55)).1 0 = .imWords [0x3F] ∧
    inspect (load [0x3F] (st 7 3 true false true 0x55)).1 7 = .imWords [0] := by decide

/-- 2.7: INSPECT at the edges of the two regions. -/
theorem test_inspect_edges : inspect (st 255 0 false false true 0x77) 255 2 = .imWords [0x77] ∧
    inspect State.reset 256 = .dmWords [0] ∧ inspect State.reset 316 10 = .dmWords [0, 0, 0, 0] ∧
    inspect State.reset 320 0 = .error (.addressOutOfRange 320) ∧ inspect State.reset 5 0 = .imWords [] := by decide

/-- 2.7: RESET. -/
theorem test_hostReset : hostReset (st 255 9 true false false 0x11) =
    { st 0 0 false false false 0x00 with im := [(255, 0x11)] } := by decide

/-- R111: the codes and recorded values. -/
theorem test_codes : HostResult.ok.code = 0 ∧ (HostResult.error (.capacityExceeded 257)).code = 1 ∧
    (HostResult.error (.programCounterOutOfRange 256)).code = 2 ∧ (HostResult.error (.addressOutOfRange 320)).code = 3 ∧
    (HostResult.error (.addressOutOfRange 320)).recorded = some 320 := by decide

/-! ### Witnesses: concrete values that meet the hypotheses of each statement that has any -/

theorem witness_PowerOnGivesEveryValue : 255 < 256 ∧ 63 < 64 ∧ 4 ≤ (4 : Nibble).toNat ∧ 4 ≤ (15 : Nibble).toNat := by decide

theorem witness_DecodeSplitsTheWord : (decode 0x32).opcode = (decode 0x32).opcode ∧
    (decode 0x32).operand = (decode 0x32).operand := ⟨rfl, rfl⟩

theorem witness_EveryWordIsLegal : opcodeField 0x43 ≠ 1 ∧ opcodeField 0x43 ≠ 2 ∧ opcodeField 0x43 ≠ 3 := by decide

theorem witness_NopChangesNothing : Fetches (st 254 9 true false true 0x07) (0x0#4 ++ 7#4) := ⟨by decide, by decide⟩

theorem witness_UnmappedCodesActAsNop : 4 ≤ (4 : Nibble).toNat ∧ 4 ≤ (15 : Nibble).toNat ∧
    Fetches (st 0 3 false false true 0x43) (0x4#4 ++ 3#4) ∧ Fetches (st 254 3 false false true 0xFF) (0xF#4 ++ 15#4) :=
  ⟨by decide, by decide, ⟨by decide, by decide⟩, by decide, by decide⟩

theorem witness_SubIsAddOfComplementButForCarry : (1 : Nibble) ≠ 0 ∧ (15 : Nibble) ≠ 0 := by decide

theorem witness_JumpSetsPcToOperand : Fetches (st 200 0 false false true 0x30) (0x3#4 ++ 0#4) ∧
    (st 15 0 false false true 0x3F).pc.toNat = (15 : Nibble).toNat ∧
    (st 15 0 false false true 0x3F).im.read (15 : Nibble).toNat = 0x3#4 ++ 15#4 :=
  ⟨⟨by decide, by decide⟩, by decide, by decide⟩

theorem witness_SelfJumpNeverHalts : (st 0 0 false false false 0x30).pc.toNat = (0 : Nibble).toNat ∧
    (st 0 0 false false false 0x30).im.read (0 : Nibble).toNat = 0x3#4 ++ 0#4 := by decide

theorem witness_OnlyJumpWritesPc : ∃ t, exec (.jmp 2) (st 10 0 false false true 0x32) = .next t ∧ t.pc ≠ 10 :=
  ⟨_, rfl, by decide⟩

/-- A halted step, a step from 254 to 255, and a jump: the three clauses, and both origins of 255. -/
theorem witness_StepMovesPcByOneOrJumps : (∃ t, step (st 255 0 false false true 0x00) = .next t ∧ t.pc = 255) ∧
    (∃ t, step (st 254 0 false false true 0x11) = .next t ∧ t.pc = 255) ∧
    ∃ t, step (st 200 0 false false true 0x30) = .next t ∧ t.pc = 0 :=
  ⟨⟨_, rfl, by decide⟩, ⟨_, rfl, by decide⟩, _, rfl, by decide⟩

theorem witness_GuardHaltsExactlyAt255 : (st 255 4 true false true 0x30).pc = 255 := by decide

theorem witness_HaltedCoreStaysHalted : (st 255 4 true false false 0x30).pc = 255 := by decide

/-- An instruction memory that differs at 255 only, and a step that answers. -/
theorem witness_LastWordIsNeverExecuted :
    (∀ a, a < 255 → Memory.read ([(0, 0x11), (255, 0x30)] : Memory 8) a = (st 0 0 false false true 0x11).im.read a) ∧
    ∃ t, step (st 0 0 false false true 0x11) = .next t := by
  refine ⟨fun a ha => ?_, _, rfl⟩
  have e : (st 0 0 false false true 0x11).im = [(0, 0x11)] := by decide
  rw [e]
  simp only [Memory.read_cons, Memory.read_nil, if_neg (show (255 : Nat) ≠ a by omega)]

theorem witness_StepRunsDecodedInstruction : (st 254 0 false false false 0x11).pc ≠ 255 := by decide

theorem witness_FetchReadsAndAdvances : 256 ≥ 256 ∧ 255 < 256 ∧ 0 < 256 := by decide

theorem witness_StepHaltsOnlyAt255 : (∃ t, step (st 255 0 false false true 0x00) = .next t ∧ t.running = false) ∧
    ∃ t, step (st 3 0 false false false 0x00) = .next t ∧ t.running = true :=
  ⟨⟨_, rfl, by decide⟩, _, rfl, by decide⟩

/-- From reset no word is a JMP, so both clauses apply, up to `n = 255`. -/
theorem witness_StraightLineAdvancesToHalt : State.reset.pc = 0 ∧
    (∀ a, a < 255 → opcodeField (State.reset.im.read a) ≠ 3) ∧ 255 ≤ 255 :=
  ⟨rfl, fun _ _ => (by decide : opcodeField (0 : Byte) ≠ 3), by decide⟩

theorem witness_StepIgnoresFlagsAndDataMemory :
    let s := st 0 9 false false false 0x17
    let s' : State := { s with c := true, z := true, running := true, dm := [(5, 3)] }
    s'.pc = s.pc ∧ s'.acc = s.acc ∧ s'.im = s.im ∧ ∃ t, step s = .next t := ⟨rfl, rfl, rfl, _, rfl⟩

theorem witness_NoopFrame : (Instr.nop 7).opcode = 0 ∧ 4 ≤ (Instr.xnop4 3).opcode.toNat ∧
    4 ≤ (Instr.xnopF 15).opcode.toNat ∧ (∃ t, exec (.nop 7) State.reset = .next t) ∧
    (∃ t, exec (.xnop4 3) State.reset = .next t) ∧ ∃ t, exec (.xnopF 15) State.reset = .next t :=
  ⟨by decide, by decide, by decide, ⟨_, rfl⟩, ⟨_, rfl⟩, _, rfl⟩

theorem witness_ArithmeticFrame : (∃ t, exec (.add 7) State.reset = .next t) ∧ ∃ t, exec (.sub 7) State.reset = .next t :=
  ⟨⟨_, rfl⟩, _, rfl⟩

theorem witness_JumpFrame : ∃ t, exec (.jmp 7) State.reset = .next t := ⟨_, rfl⟩

theorem witness_InstructionsKeepMemoriesAndRunning : ∃ t, exec (.add 7) (st 1 2 true true true 0x17) = .next t := ⟨_, rfl⟩

/-- POWER_ON, RESET and an ADD by STEP, each changing the accumulator. -/
theorem witness_DataChangesOnlyByAddSubOrReset :
    (∃ t r, transact .powerOn (st 0 9 false false true 0x17) = .next (t, r) ∧ ¬ SameData (st 0 9 false false true 0x17) t) ∧
    (∃ t r, transact .reset (st 0 9 false false true 0x17) = .next (t, r) ∧ ¬ SameData (st 0 9 false false true 0x17) t) ∧
    ∃ t r, transact .step (st 0 9 false false true 0x17) = .next (t, r) ∧ ¬ SameData (st 0 9 false false true 0x17) t :=
  ⟨⟨_, _, rfl, fun h => absurd h.1 (by decide)⟩, ⟨_, _, rfl, fun h => absurd h.1 (by decide)⟩,
    _, _, rfl, fun h => absurd h.1 (by decide)⟩

theorem witness_HostWritesRegistersOnlyByReset :
    (∃ t r, transact (.load [0x3F]) (st 7 3 true false true 0x55) = .next (t, r)) ∧ HostOp.load [0x3F] ≠ .step ∧
    HostOp.load [0x3F] ≠ .powerOn ∧ HostOp.load [0x3F] ≠ .reset :=
  ⟨⟨_, _, rfl⟩, by decide, by decide, by decide⟩

theorem witness_LoadOverwritesInstructionMemory : ([] : List Byte).length ≤ 256 ∧
    (List.replicate 256 (0x11 : Byte)).length ≤ 256 ∧ 255 < 256 :=
  ⟨by decide, Nat.le_of_eq List.length_replicate, by decide⟩

theorem witness_LoadTooLongChangesNothing : 256 < (List.replicate 257 (0xFF : Byte)).length := by
  rw [List.length_replicate]; decide

theorem witness_LoadKeepsRegistersAndFeedsNextStep : ([0x2F, 0x2F] : List Byte).length ≤ 256 ∧
    (st 1 3 false false true 0x30).pc ≠ 255 := by decide

theorem witness_InspectReturnsLoadedProgram : ([0x12, 0x34] : List Byte).length < 256 ∧
    (List.replicate 256 (0x11 : Byte)).length = 256 := ⟨by decide, List.length_replicate⟩

theorem witness_InspectInstructionMemory : 0 < 256 ∧ 255 < 256 ∧
    ∃ ws, inspect State.reset 255 2 = .imWords ws ∧ 0 < ws.length := ⟨by decide, by decide, _, rfl, by decide⟩

theorem witness_InspectDataMemory : 256 ≤ 256 ∧ 319 < 320 ∧
    ∃ ws, inspect State.reset 319 2 = .dmWords ws ∧ 0 < ws.length := ⟨by decide, by decide, _, rfl, by decide⟩

theorem witness_InspectOutsideBothRegions : 320 ≤ 320 := by decide

theorem witness_InspectIsReadOnlyAndRepeatable : (∃ t r, transact .stop State.reset = .next (t, r)) ∧
    HostOp.stop ≠ .powerOn ∧ ∀ bytes, HostOp.stop ≠ .load bytes :=
  ⟨⟨_, _, rfl⟩, by decide, fun bytes h => HostOp.noConfusion h⟩

theorem witness_ImWrittenOnlyByPowerOnAndLoad :
    (∃ t r, transact (.load [0x11]) State.reset = .next (t, r) ∧ t.im.read 0 ≠ State.reset.im.read 0) ∧
    ∃ t r, transact .powerOn (st 0 0 false false true 0x11) = .next (t, r) ∧
      t.im.read 0 ≠ (st 0 0 false false true 0x11).im.read 0 :=
  ⟨⟨_, _, rfl, by decide⟩, _, _, rfl, by decide⟩

/-- A state whose data memory is not zero (no run reaches one) and POWER_ON. -/
theorem witness_DmWrittenOnlyByPowerOn :
    let s : State := { State.reset with dm := [(5, 3)] }
    ∃ t r, transact .powerOn s = .next (t, r) ∧ t.dm.read 5 ≠ s.dm.read 5 := ⟨_, _, rfl, by decide⟩

theorem witness_DataMemoryIsAlwaysZero :
    ∃ t rs, runOps [.load [0x11], .step, .inspect 256 4] State.reset = .next (t, rs) := ⟨_, _, rfl⟩

theorem witness_ErrorsLeaveTheState : ∃ t, transact (.inspect 320 0) State.reset =
    .next (t, .error (.addressOutOfRange 320)) := ⟨_, rfl⟩

theorem witness_PhasesRefineStep : (∃ t, step (st 0 9 false false true 0x17) = .next t) ∧
    ∃ t, step (st 255 9 false false true 0x17) = .next t := ⟨⟨_, rfl⟩, _, rfl⟩

theorem witness_PortsPresentEveryCase : 511 ≤ 511 ∧ 320 ≤ 511 ∧ 257 ≤ 511 ∧ 1 ≤ 1 := by decide

/-- A state with a listed word, both flags used and a zero accumulator meets the invariant, and steps. -/
theorem witness_StepKeepsInv : Inv (st 3 0 true true true 0x11) ∧ ∃ t, step (st 3 0 true true true 0x11) = .next t :=
  ⟨⟨by decide, by decide, fun _ => rfl, fun _ => rfl⟩, _, rfl⟩

theorem witness_HostOperationsKeepInv : Inv (st 3 0 true true true 0x11) ∧
    ∃ t r, transact (.load [0x00, 0x12]) (st 3 0 true true true 0x11) = .next (t, r) :=
  ⟨⟨by decide, by decide, fun _ => rfl, fun _ => rfl⟩, _, _, rfl⟩

end Sys2Proof.Tests
end

section
/-!
Host operations are total: STEP answers `OK` on both sides of the guard, and so every operation, and every list of them,
completes (spec/00_scope.md R6, spec/60_exceptions.md R115, R119).
-/

namespace Sys2Proof.Proofs.HostTotality

open Sys2Proof Sys2Proof.Machine

/-- At `PC = 255` the host's STEP halts the machine (R68). -/
theorem hostStep_halted {s : State} (h : s.pc = 255) : hostStep s = .next (s.setRunning false, .ok) := by
  simp only [hostStep, startStep_halted h]

/-- Anywhere else the host's STEP runs the handler of the word at `PC` after the fetch (R67, R71). -/
theorem hostStep_fetched {s : State} (h : s.pc ≠ 255) :
    hostStep s = .next (runHandler (dispatch (decode (s.im.read s.pc.toNat)).opcode)
      (decode (s.im.read s.pc.toNat)).operand ((s.setRunning true).setPc (s.pc + 1)), .ok) := by
  simp only [hostStep, startStep_fetched h, exec_eq_runHandler]

/-- The host's STEP always completes, and its result is `OK` (R113). -/
theorem hostStep_completes (s : State) : ∃ t, hostStep s = .next (t, .ok) := by
  by_cases h : s.pc = 255
  · exact ⟨_, hostStep_halted h⟩
  · exact ⟨_, hostStep_fetched h⟩

/-- Every host operation completes with one result (R6). -/
theorem transact_completes (op : HostOp) (s : State) : ∃ t r, transact op s = .next (t, r) := by
  cases op with
  | step =>
    obtain ⟨t, ht⟩ := hostStep_completes s
    exact ⟨t, .ok, ht⟩
  | powerOn | reset | load | stop | inspect => exact ⟨_, _, rfl⟩

/-- Settles O47, by induction on the list of operations, over all states. -/
theorem hostRunsNeverStop : Obligations.HostRunsNeverStop := by
  intro ops
  induction ops with
  | nil => exact fun s => ⟨s, [], runOps_nil s, rfl⟩
  | cons op ops ih =>
    intro s
    obtain ⟨t, r, hop⟩ := transact_completes op s
    obtain ⟨u, rs, hrest, hlen⟩ := ih t
    exact ⟨u, r :: rs, runOps_cons_of_next hop hrest, congrArg (· + 1) hlen⟩

end Sys2Proof.Proofs.HostTotality
end

section
/-!
What each piece of state may be changed by, and the invariant of the core (spec/10_state.md): POWER_ON's values, what a
handler and a step leave unchanged, what a step does not read, and that every host operation keeps the invariant.
-/

namespace Sys2Proof.Proofs.StatePieces

open Sys2Proof Sys2Proof.Machine Sys2Proof.Safety Sys2Proof.Proofs.HostTotality

/-! ### The cases of a step and of a LOAD -/

/-- At `PC = 255` a step halts the machine (R68). -/
theorem step_halted {s : State} (h : s.pc = 255) : step s = .next (s.setRunning false) := by
  simp only [step, startStep_halted h]

/-- Anywhere else a step runs the handler of the word at `PC` on the state after the fetch (R67, R71). -/
theorem step_fetched {s : State} (h : s.pc ≠ 255) :
    step s = .next (runHandler (dispatch (decode (s.im.read s.pc.toNat)).opcode)
      (decode (s.im.read s.pc.toNat)).operand ((s.setRunning true).setPc (s.pc + 1))) := by
  simp only [step, startStep_fetched h, exec_eq_runHandler]

/-- All a step can do: halt at 255, or below it run a handler on the state after the fetch. -/
theorem step_cases {s t : State} (h : step s = .next t) :
    (s.pc = 255 ∧ t = s.setRunning false) ∨
    (s.pc ≠ 255 ∧ t = runHandler (dispatch (decode (s.im.read s.pc.toNat)).opcode)
      (decode (s.im.read s.pc.toNat)).operand ((s.setRunning true).setPc (s.pc + 1))) := by
  by_cases hpc : s.pc = 255
  · rw [step_halted hpc] at h
    exact .inl ⟨hpc, (Host.Outcome.next.inj h).symm⟩
  · rw [step_fetched hpc] at h
    exact .inr ⟨hpc, (Host.Outcome.next.inj h).symm⟩

/-- The host's STEP leaves the state the machine's step answers (R67, R113). -/
theorem step_of_transact_step {s t : State} {r : HostResult} (h : transact .step s = .next (t, r)) :
    step s = .next t := by
  change hostStep s = .next (t, r) at h
  by_cases hpc : s.pc = 255
  · cases (hostStep_halted hpc).symm.trans h
    exact step_halted hpc
  · cases (hostStep_fetched hpc).symm.trans h
    exact step_fetched hpc

/-- All a LOAD can do: leave the state, or replace instruction memory by at most 256 bytes (R44, R45). -/
theorem transact_load_cases {bytes : List Byte} {s t : State} {r : HostResult}
    (h : transact (.load bytes) s = .next (t, r)) :
    t = s ∨ (bytes.length ≤ 256 ∧ t = s.setIm (Memory.ofWords 0 bytes)) := by
  have hload : load bytes s = (t, r) := Host.Outcome.next.inj h
  by_cases hlen : bytes.length ≤ 256
  · cases (load_fits hlen s).symm.trans hload
    exact .inr ⟨hlen, rfl⟩
  · cases (load_exceeds (Nat.lt_of_not_le hlen) s).symm.trans hload
    exact .inl rfl

/-! ### What POWER_ON writes -/

/-- The dispatch table gives every operation code from 4 up the no-op handler (R27, R63). -/
theorem dispatch_unmapped : ∀ c : Nibble, 4 ≤ c.toNat → dispatch c = .nop := by decide

/-- Settles O1: each value is a field of `State.reset`, whose memories list nothing. -/
theorem powerOnGivesEveryValue : Obligations.PowerOnGivesEveryValue :=
  ⟨fun _ => ⟨rfl, rfl, rfl, rfl, rfl, fun _ _ => rfl, fun _ _ => rfl, rfl⟩, rfl, rfl, rfl, rfl, dispatch_unmapped⟩

/-! ### What a handler leaves unchanged -/

/-- Settles O32: every instruction runs a handler, and no handler writes a memory or RUNNING. -/
theorem instructionsKeepMemoriesAndRunning : Obligations.InstructionsKeepMemoriesAndRunning := by
  intro i s t h
  rw [exec_eq_runHandler] at h
  obtain rfl := Host.Outcome.next.inj h
  obtain ⟨hrunning, him, hdm⟩ := runHandler_frame (dispatch i.opcode) i.operand s
  exact ⟨⟨fun a => by rw [him], fun a => by rw [hdm]⟩, hrunning⟩

/-- Only the add and the subtract handlers write `ACC`, `C` or `Z` (R80, R100). -/
theorem runHandler_sameData {h : Handler} (k : Nibble) (s : State) (hadd : h ≠ .add) (hsub : h ≠ .sub) :
    SameData s (runHandler h k s) := by
  cases h with
  | nop | jmp => exact ⟨rfl, rfl, rfl⟩
  | add => exact absurd rfl hadd
  | sub => exact absurd rfl hsub

/-- The decoded instruction has the operation code of its word (R60). -/
theorem opcode_decode (w : Byte) : (decode w).opcode = opcodeField w := by
  revert w; decide

/-- The table selects the add handler for operation code 1 alone (R63). -/
theorem dispatch_eq_add_iff : ∀ c : Nibble, dispatch c = .add ↔ c = 1 := by decide

/-- The table selects the subtract handler for operation code 2 alone (R63). -/
theorem dispatch_eq_sub_iff : ∀ c : Nibble, dispatch c = .sub ↔ c = 2 := by decide

/-- A step that changes `ACC`, `C` or `Z` began below 255 at a word of operation code 1 or 2. -/
theorem addOrSub_of_step_changes_data {s t : State} (h : step s = .next t) (hdata : ¬ SameData s t) :
    s.pc ≠ 255 ∧ (opcodeField (s.im.read s.pc.toNat) = 1 ∨ opcodeField (s.im.read s.pc.toNat) = 2) := by
  obtain ⟨-, rfl⟩ | ⟨hpc, rfl⟩ := step_cases h
  · exact absurd ⟨rfl, rfl, rfl⟩ hdata
  · refine ⟨hpc, ?_⟩
    rw [opcode_decode] at hdata
    by_contra hcode
    obtain ⟨hadd, hsub⟩ := not_or.1 hcode
    exact hdata (runHandler_sameData _ ((s.setRunning true).setPc (s.pc + 1))
      (mt (dispatch_eq_add_iff _).1 hadd) (mt (dispatch_eq_sub_iff _).1 hsub))

/-- Settles O33, one case per host operation: LOAD, STOP and INSPECT keep the data, and so does a STEP of anything but an
ADD or a SUB. -/
theorem dataChangesOnlyByAddSubOrReset : Obligations.DataChangesOnlyByAddSubOrReset := by
  intro op s t r h hdata
  cases op with
  | powerOn => exact .inl rfl
  | reset => exact .inr (.inl rfl)
  | step => exact .inr (.inr ⟨rfl, addOrSub_of_step_changes_data (step_of_transact_step h) hdata⟩)
  | load bytes =>
    obtain rfl | ⟨-, rfl⟩ := transact_load_cases h <;> exact absurd ⟨rfl, rfl, rfl⟩ hdata
  | stop | inspect => cases h; exact absurd ⟨rfl, rfl, rfl⟩ hdata

/-! ### What a step does not read -/

/-- Two states agree on `PC`, `ACC`, RUNNING and instruction memory: all but the flags and data memory. -/
def AgreeButFlagsAndDm (s s' : State) : Prop :=
  s'.pc = s.pc ∧ s'.acc = s.acc ∧ s'.running = s.running ∧ s'.im = s.im

/-- No handler reads a flag or data memory (R22, R23, R42). -/
theorem AgreeButFlagsAndDm.runHandler {s s' : State} (agree : AgreeButFlagsAndDm s s') (h : Handler) (k : Nibble) :
    AgreeButFlagsAndDm (runHandler h k s) (runHandler h k s') := by
  obtain ⟨hpc, hacc, hrunning, him⟩ := agree
  have hvalue : accValue s' = accValue s := by rw [accValue, accValue, hacc]
  cases h with
  | nop => exact ⟨hpc, hacc, hrunning, him⟩
  | add => exact ⟨hpc, congrArg (fun v => low4 (v + immediate k)) hvalue, hrunning, him⟩
  | sub => exact ⟨hpc, congrArg (fun v => low4 (v - immediate k)) hvalue, hrunning, him⟩
  | jmp => exact ⟨rfl, hacc, hrunning, him⟩

/-- Settles O28: the guard or the fetch makes RUNNING the same on both sides, and no handler reads what may differ. -/
theorem stepIgnoresFlagsAndDataMemory : Obligations.StepIgnoresFlagsAndDataMemory := by
  intro s s' t hpc hacc him h
  obtain ⟨hs, rfl⟩ | ⟨hs, rfl⟩ := step_cases h
  · exact ⟨_, step_halted (hpc.trans hs), hpc, hacc, rfl, him⟩
  · have agree : AgreeButFlagsAndDm ((s.setRunning true).setPc (s.pc + 1)) ((s'.setRunning true).setPc (s.pc + 1)) :=
      ⟨rfl, hacc, rfl, him⟩
    have hstep := step_fetched (s := s') (hpc ▸ hs)
    rw [hpc, him] at hstep
    exact ⟨_, hstep, agree.runHandler _ _⟩

/-! ### The invariant -/

/-- Settles O54: both memories list nothing, and `Z` is clear. -/
theorem invHoldsAtReset : Obligations.InvHoldsAtReset :=
  ⟨rfl, rfl, fun _ => rfl, fun hz => absurd hz Bool.false_ne_true⟩

/-- Whatever keeps both memories keeps the invariant, once it leaves `Z` set only over a zero accumulator. -/
theorem inv_of_memories_eq {s t : State} (inv : Inv s) (him : t.im = s.im) (hdm : t.dm = s.dm)
    (hz : t.z = true → t.acc = 0) : Inv t := by
  obtain ⟨hwfIm, hwfDm, hzero, -⟩ := inv
  exact ⟨him ▸ hwfIm, hdm ▸ hwfDm, hdm ▸ hzero, hz⟩

/-- Under the invariant the Zero flag stands only over a zero accumulator. -/
theorem acc_eq_zero_of_inv {s : State} (inv : Inv s) : s.z = true → s.acc = 0 := by
  obtain ⟨-, -, -, hz⟩ := inv
  exact hz

/-- A result whose Zero flag is set is masked to zero (R90). -/
theorem low4_eq_zero_of_zeroOf {result : Int} (h : zeroOf result = true) : low4 result = 0 := by
  have hmod : result % 16 = 0 := of_decide_eq_true h
  rw [low4, hmod]
  rfl

/-- A handler sets `Z` only over a zero accumulator: ADD and SUB write the two together, the others write neither. -/
theorem runHandler_zeroFlag (h : Handler) (k : Nibble) {s : State} (hz : s.z = true → s.acc = 0) :
    (runHandler h k s).z = true → (runHandler h k s).acc = 0 := by
  cases h with
  | nop | jmp => exact hz
  | add | sub => exact low4_eq_zero_of_zeroOf

/-- Every handler keeps the invariant. -/
theorem inv_runHandler {s : State} (inv : Inv s) (h : Handler) (k : Nibble) : Inv (runHandler h k s) := by
  obtain ⟨-, him, hdm⟩ := runHandler_frame h k s
  exact inv_of_memories_eq inv him hdm (runHandler_zeroFlag h k (acc_eq_zero_of_inv inv))

/-- Settles O55: a halting step writes RUNNING alone, and any other runs a handler, which keeps the invariant, after a
fetch that writes RUNNING and `PC` alone. -/
theorem stepKeepsInv : Obligations.StepKeepsInv := by
  intro s t inv h
  obtain ⟨-, rfl⟩ | ⟨-, rfl⟩ := step_cases h
  · exact inv_of_memories_eq inv rfl rfl (acc_eq_zero_of_inv inv)
  · have invFetched : Inv ((s.setRunning true).setPc (s.pc + 1)) :=
      inv_of_memories_eq inv rfl rfl (acc_eq_zero_of_inv inv)
    exact inv_runHandler invFetched _ _

/-- Replacing instruction memory by at most 256 bytes keeps the invariant (R25, R44). -/
theorem inv_setIm_ofWords {s : State} (inv : Inv s) {bytes : List Byte} (hlen : bytes.length ≤ 256) :
    Inv (s.setIm (Memory.ofWords 0 bytes)) := by
  obtain ⟨-, hdm, hzero, hz⟩ := inv
  exact ⟨Memory.wf_ofWords bytes hlen, hdm, hzero, hz⟩

/-- Settles O56, one case per host operation; STEP is O55's. -/
theorem hostOperationsKeepInv : Obligations.HostOperationsKeepInv := by
  intro op s t r inv h
  cases op with
  | powerOn => cases h; exact invHoldsAtReset
  | reset => cases h; exact inv_of_memories_eq inv rfl rfl fun _ => rfl
  | load bytes =>
    obtain rfl | ⟨hlen, rfl⟩ := transact_load_cases h
    · exact inv
    · exact inv_setIm_ofWords inv hlen
  | step => exact stepKeepsInv s t inv (step_of_transact_step h)
  | stop => cases h; exact inv_of_memories_eq inv rfl rfl (acc_eq_zero_of_inv inv)
  | inspect => cases h; exact inv

end Sys2Proof.Proofs.StatePieces
end

section
/-!
Memory access (spec/20_memory.md): the fetch and where a step takes `PC`, what LOAD writes, what INSPECT returns, and which
host operations write a memory or a register.
-/

namespace Sys2Proof.Proofs.MemoryAccess

open Sys2Proof Sys2Proof.Machine Sys2Proof.Safety Sys2Proof.Proofs.HostTotality Sys2Proof.Proofs.StatePieces

/-! ### The fetch -/

/-- Settles O25: the two branches of the bounds check, and the core's own fetch, which is always in bounds (C1). -/
theorem fetchReadsAndAdvances : Obligations.FetchReadsAndAdvances :=
  ⟨fun _ _ hout => if_pos hout, fun _ _ hin => if_neg (Nat.not_le.2 hin), fetch_eq⟩

/-- Settles O23: below 255 the beginning of a step has fetched, and what follows is `exec` of the decoded word. -/
theorem stepRunsDecodedInstruction : Obligations.StepRunsDecodedInstruction := by
  intro s hpc
  rw [step, startStep_fetched hpc]
  rfl

/-- All a step can do, whatever the word: halt at 255, or below it run one of the handlers on the state after the fetch. -/
theorem step_cases_someHandler {s t : State} (hstep : step s = .next t) :
    (s.pc = 255 ∧ t = s.setRunning false) ∨
    (s.pc ≠ 255 ∧ ∃ h k, t = runHandler h k ((s.setRunning true).setPc (s.pc + 1))) :=
  (step_cases hstep).imp_right fun ⟨hpc, ht⟩ => ⟨hpc, _, _, ht⟩

/-! ### Where a step takes `PC` -/

/-- A handler leaves `PC` or sets it to its operand (R100, R101). -/
theorem runHandler_pc_cases (h : Handler) (k : Nibble) (s : State) :
    (runHandler h k s).pc = s.pc ∨ (runHandler h k s).pc = jumpTarget k := by
  cases h with
  | nop | add | sub => exact .inl rfl
  | jmp => exact .inr rfl

/-- A jump target is one of the addresses 0 to 15 (R61). -/
theorem jumpTarget_toNat_le (k : Nibble) : (jumpTarget k).toNat ≤ 15 := by
  revert k; decide

/-- Below 255 the address after a `PC` does not wrap. -/
theorem toNat_add_one_of_ne {p : Byte} (h : p ≠ 255) : (p + 1).toNat = p.toNat + 1 := by
  bv_omega

/-- A step stays at 255, or from below it leads to the next address or to one of 0 to 15 (R58, R68). -/
theorem step_pc_cases {s t : State} (hstep : step s = .next t) :
    (s.pc = 255 ∧ t.pc = 255) ∨ (s.pc ≠ 255 ∧ t.pc.toNat = s.pc.toNat + 1) ∨ (s.pc ≠ 255 ∧ t.pc.toNat ≤ 15) := by
  obtain ⟨hpc, rfl⟩ | ⟨hpc, h, k, rfl⟩ := step_cases_someHandler hstep
  · exact .inl ⟨hpc, hpc⟩
  · obtain hnext | hjump := runHandler_pc_cases h k ((s.setRunning true).setPc (s.pc + 1))
    · exact .inr (.inl ⟨hpc, (congrArg BitVec.toNat hnext).trans (toNat_add_one_of_ne hpc)⟩)
    · exact .inr (.inr ⟨hpc, hjump ▸ jumpTarget_toNat_le _⟩)

/-- Settles O19: of the three ways only falling through from 254 and staying at 255 end at 255. -/
theorem stepMovesPcByOneOrJumps : Obligations.StepMovesPcByOneOrJumps := by
  intro s t h
  refine ⟨step_pc_cases h, fun ht => ?_⟩
  have htNat : t.pc.toNat = 255 := congrArg BitVec.toNat ht
  obtain ⟨hpc, -⟩ | ⟨-, hnext⟩ | ⟨-, hlow⟩ := step_pc_cases h
  · exact .inr hpc
  · exact .inl (BitVec.eq_of_toNat_eq (show s.pc.toNat = 254 by omega))
  · omega

/-! ### Which operations write a memory or a register -/

/-- INSPECT as a host operation gives back the state as it was (R51). -/
theorem transact_inspect (s : State) (address length : Nat) :
    transact (.inspect address length) s = .next (s, inspect s address length) := rfl

/-- A step writes no memory (R41, R42). -/
theorem step_keeps_memories {s t : State} (hstep : step s = .next t) : t.im = s.im ∧ t.dm = s.dm := by
  obtain ⟨-, rfl⟩ | ⟨-, h, k, rfl⟩ := step_cases_someHandler hstep
  · exact ⟨rfl, rfl⟩
  · obtain ⟨-, him, hdm⟩ := runHandler_frame h k ((s.setRunning true).setPc (s.pc + 1))
    exact ⟨him, hdm⟩

/-- Every host operation but POWER_ON and LOAD keeps instruction memory (R41). -/
theorem transact_keeps_im {op : HostOp} {s t : State} {r : HostResult} (h : transact op s = .next (t, r))
    (hpower : op ≠ .powerOn) (hload : ∀ bytes, op ≠ .load bytes) : t.im = s.im := by
  cases op with
  | powerOn => exact absurd rfl hpower
  | load bytes => exact absurd rfl (hload bytes)
  | step => exact (step_keeps_memories (step_of_transact_step h)).1
  | reset | stop | inspect => cases h; rfl

/-- Every host operation but POWER_ON keeps data memory (R42). -/
theorem transact_keeps_dm {op : HostOp} {s t : State} {r : HostResult} (h : transact op s = .next (t, r))
    (hpower : op ≠ .powerOn) : t.dm = s.dm := by
  cases op with
  | powerOn => exact absurd rfl hpower
  | load bytes => obtain rfl | ⟨-, rfl⟩ := transact_load_cases h <;> rfl
  | step => exact (step_keeps_memories (step_of_transact_step h)).2
  | reset | stop | inspect => cases h; rfl

/-- Settles O44: any other operation keeps instruction memory, so no word of it reads differently. -/
theorem imWrittenOnlyByPowerOnAndLoad : Obligations.ImWrittenOnlyByPowerOnAndLoad := by
  rintro op s t r h ⟨a, ha⟩
  by_contra hop
  obtain ⟨hpower, hload⟩ := not_or.1 hop
  exact ha (by rw [transact_keeps_im h hpower (not_exists.1 hload)])

/-- Settles O45: any other operation keeps data memory, so no word of it reads differently. -/
theorem dmWrittenOnlyByPowerOn : Obligations.DmWrittenOnlyByPowerOn := by
  rintro op s t r h ⟨a, ha⟩
  by_contra hpower
  exact ha (by rw [transact_keeps_dm h hpower])

/-- Settles O34, one case per host operation: LOAD replaces instruction memory at most, STOP writes RUNNING, INSPECT nothing. -/
theorem hostWritesRegistersOnlyByReset : Obligations.HostWritesRegistersOnlyByReset := by
  intro op s t r h hstep hpower hreset
  cases op with
  | step => exact absurd rfl hstep
  | powerOn => exact absurd rfl hpower
  | reset => exact absurd rfl hreset
  | load bytes => obtain rfl | ⟨-, rfl⟩ := transact_load_cases h <;> exact ⟨rfl, rfl, rfl, rfl⟩
  | stop | inspect => cases h; exact ⟨rfl, rfl, rfl, rfl⟩

/-- Settles O48, one case per host operation: a LOAD that fits and a STEP answer `OK`, and what else answers an error has
written nothing. -/
theorem errorsLeaveTheState : Obligations.ErrorsLeaveTheState := by
  intro op s t e h
  cases op with
  | powerOn | reset | stop => cases h
  | step =>
    obtain ⟨u, hu⟩ := hostStep_completes s
    cases hu.symm.trans h
  | load bytes =>
    have hload : load bytes s = (t, .error e) := Host.Outcome.next.inj h
    by_cases hlen : bytes.length ≤ 256
    · cases (load_fits hlen s).symm.trans hload
    · cases (load_exceeds (Nat.lt_of_not_le hlen) s).symm.trans hload
      rfl
  | inspect address length =>
    rw [transact_inspect] at h
    exact (congrArg Prod.fst (Host.Outcome.next.inj h)).symm

/-! ### What LOAD writes -/

/-- Settles O36: the capacity check fails first (R45). -/
theorem loadTooLongChangesNothing : Obligations.LoadTooLongChangesNothing :=
  fun _ s hlen => ⟨_, load_exceeds hlen s⟩

/-- Settles O35: instruction memory becomes the memory of the bytes, from whatever state. -/
theorem loadOverwritesInstructionMemory : Obligations.LoadOverwritesInstructionMemory := by
  intro bytes hlen s
  refine ⟨_, load_fits hlen s, fun a _ => ?_, fun s' => by rw [load_fits hlen s']; rfl⟩
  rw [State.setIm_im, Memory.read_ofWords, if_pos (Nat.zero_le a), Nat.sub_zero, List.getD_getElem?]

/-! ### What INSPECT returns -/

/-- A slice is any list of its length whose words are the memory's, in order. -/
theorem slice_eq_of_reads {w cap a len : Nat} {m : Memory w} {ws : List (BitVec w)}
    (hlen : ws.length = min (a + len) cap - a) (hread : ∀ i (hi : i < ws.length), m.read (a + i) = ws[i]) :
    m.slice cap a len = ws := by
  have hslice : (m.slice cap a len).length = ws.length := (Memory.length_slice m cap a len).trans hlen.symm
  refine List.ext_getElem? fun i => ?_
  by_cases hi : i < ws.length
  · rw [Memory.getElem?_slice m cap a len i (hlen ▸ hi), hread i hi, List.getElem?_eq_getElem hi]
  · rw [List.getElem?_eq_none (by omega), List.getElem?_eq_none (by omega)]

/-- The first words of a memory made of words are those words. -/
theorem slice_ofWords {w cap : Nat} {words : List (BitVec w)} (h : words.length ≤ cap) :
    (Memory.ofWords 0 words).slice cap 0 words.length = words := by
  refine slice_eq_of_reads (by omega) fun i hi => ?_
  rw [Memory.read_ofWords, if_pos (Nat.zero_le _)]
  simp [hi]

/-- Past its words, up to the capacity, a memory made of words holds zeros. -/
theorem slice_ofWords_tail {w cap : Nat} (words : List (BitVec w)) :
    (Memory.ofWords 0 words).slice cap words.length (cap - words.length) =
      List.replicate (cap - words.length) 0 := by
  refine slice_eq_of_reads (by rw [List.length_replicate]; omega) fun i _ => ?_
  rw [Memory.read_ofWords, if_pos (Nat.zero_le _)]
  simp

/-- Settles O38: the loaded words and the zeros after them are slices of instruction memory; past a full program the address
is 256, where no word of data memory is asked for. -/
theorem inspectReturnsLoadedProgram : Obligations.InspectReturnsLoadedProgram := by
  intro bytes s hlen
  rw [load_fits hlen s]
  refine ⟨?_, fun hshort => ?_, fun hfull => ?_⟩
  · rw [inspect_im (by decide), State.setIm_im, slice_ofWords hlen]
  · rw [inspect_im hshort, State.setIm_im, slice_ofWords_tail]
  · rw [hfull]; rfl

/-- The words a slice returns: at most `len`, cut at the capacity, in increasing address order (R48, R49). -/
theorem slice_spec {w : Nat} (m : Memory w) (cap a len : Nat) :
    (m.slice cap a len).length = min len (cap - a) ∧
      ∀ i, i < (m.slice cap a len).length → (m.slice cap a len)[i]? = some (m.read (a + i)) := by
  refine ⟨?_, fun i hi => ?_⟩
  · rw [Memory.length_slice]; omega
  · rw [Memory.length_slice] at hi
    exact Memory.getElem?_slice m cap a len i hi

/-- Settles O39: below 256 the words are a slice of instruction memory. -/
theorem inspectInstructionMemory : Obligations.InspectInstructionMemory :=
  fun s address length h => ⟨_, inspect_im h length, slice_spec s.im 256 address length⟩

/-- Settles O40: in 256 to 319 the words are a slice of data memory, at the address less 256. -/
theorem inspectDataMemory : Obligations.InspectDataMemory := by
  refine ⟨fun s address length hlow hhigh => ?_, fun _ => rfl⟩
  obtain ⟨hlength, hwords⟩ := slice_spec s.dm 64 (address - 256) length
  rw [show 64 - (address - 256) = 320 - address by omega] at hlength
  exact ⟨_, inspect_dm hlow hhigh length, hlength, hwords⟩

/-- Settles O41: the recorded value is the address, whatever the length. -/
theorem inspectOutsideBothRegions : Obligations.InspectOutsideBothRegions :=
  fun s address h => ⟨address, fun length => by rw [transact_inspect, inspect_outside h]⟩

/-- INSPECT reads the two memories and nothing else. -/
theorem inspect_eq_of_memories_eq {s t : State} (him : t.im = s.im) (hdm : t.dm = s.dm) (address length : Nat) :
    inspect t address length = inspect s address length := by
  rw [inspect, inspect, him, hdm]

/-- Settles O42: what keeps both memories keeps every INSPECT's result. -/
theorem inspectIsReadOnlyAndRepeatable : Obligations.InspectIsReadOnlyAndRepeatable :=
  ⟨transact_inspect, fun _ _ _ _ h hpower hload =>
    inspect_eq_of_memories_eq (transact_keeps_im h hpower hload) (transact_keeps_dm h hpower)⟩

end Sys2Proof.Proofs.MemoryAccess
end

section
/-!
Encoding and the step (spec/30_encoding.md): a word is its two fields, decode and encode are inverse, the operation code
selects the handler, every instruction and every step completes, and RUNNING does not steer a step.
-/

namespace Sys2Proof.Proofs.Encoding

open Sys2Proof Sys2Proof.Machine Sys2Proof.Safety Sys2Proof.Proofs.HostTotality Sys2Proof.Proofs.StatePieces

/-! ### The two fields of a word -/

/-- The operation code is the high nibble (R60). -/
theorem opcodeField_toNat (w : Byte) : (opcodeField w).toNat = w.toNat / 16 := by
  rw [opcodeField, BitVec.extractLsb'_toNat, Nat.shiftRight_eq_div_pow]
  omega

/-- The operand is the low nibble (R60). -/
theorem operandField_toNat (w : Byte) : (operandField w).toNat = w.toNat % 16 := by
  rw [operandField, BitVec.extractLsb'_toNat, Nat.shiftRight_zero]

/-- A word is its two fields put together, so no bit is dropped. -/
theorem opcodeField_append_operandField (w : Byte) : opcodeField w ++ operandField w = w := by
  revert w; decide

/-! ### Decode and encode -/

/-- The decoded instruction has the operand of its word, whatever its operation code (R60). -/
theorem operand_decode (w : Byte) : (decode w).operand = operandField w := by
  revert w; decide

/-- An instruction is selected by its own operation code and operand (R63). -/
theorem decodeFields_opcode_operand (i : Instr) : decodeFields i.opcode i.operand = i := by
  cases i <;> rfl

/-- No instruction is lost by encoding it (R60, R63). -/
theorem decode_encode (i : Instr) : decode (encode i) = i := by
  obtain ⟨hopcode, hoperand⟩ := Laws.EncodeFields.fields_append i.opcode i.operand
  calc decode (encode i)
    _ = decodeFields i.opcode i.operand := congrArg₂ decodeFields hopcode hoperand
    _ = i := decodeFields_opcode_operand i

/-- No word is lost by decoding it (R64). -/
theorem encode_decode (w : Byte) : encode (decode w) = w := by
  rw [encode, opcode_decode, operand_decode, opcodeField_append_operandField]

/-- Decoding a list takes one word off it for one instruction (R65). -/
theorem decodeBytes_encode_cons (i : Instr) (rest : List Byte) : decodeBytes (encode i :: rest) = .ok (i, rest) := by
  rw [decodeBytes, decode_encode]

/-- The check on an instruction is the range of its operand (R61). -/
theorem wellFormed_eq (i : Instr) : i.wellFormed = decide (i.operand.toNat ≤ 15) := by
  cases i <;> rfl

/-- A 4-bit operand is always in range, so every instruction is well-formed (R61, R64). -/
theorem wellFormed_all (i : Instr) : i.WellFormed :=
  (wellFormed_eq i).trans (decide_eq_true (Nat.le_of_lt_succ i.operand.isLt))

/-- Settles O5: an instruction's word holds its two fields, which select it, and a word is the two fields it decodes to. -/
theorem decodeEncodeAgree : Obligations.DecodeEncodeAgree :=
  ⟨fun i rest => ⟨wellFormed_all i, decode_encode i, decodeBytes_encode_cons i rest⟩, encode_decode⟩

/-- Settles O3: the two fields are quotient and remainder by 16, and a word is the encoding of what it decodes to. -/
theorem decodeSplitsTheWord : Obligations.DecodeSplitsTheWord := by
  refine ⟨fun w => ?_, fun v w hopcode hoperand => ?_⟩
  · rw [opcode_decode, operand_decode]
    exact ⟨opcodeField_toNat w, operandField_toNat w⟩
  · calc v
      _ = encode (decode v) := (encode_decode v).symm
      _ = encode (decode w) := by rw [encode, encode, hopcode, hoperand]
      _ = w := encode_decode w

/-- Settles O6, by evaluating the decoder on each word. -/
theorem wordsDecodeAsTabulated : Obligations.WordsDecodeAsTabulated :=
  ⟨rfl, rfl, rfl, rfl, rfl, rfl⟩

/-! ### The handler of a word -/

/-- Executing a decoded word runs the handler of its operation code on its operand (R63, R71). -/
theorem exec_decode (w : Byte) (s : State) :
    exec (decode w) s = .next (runHandler (dispatch (opcodeField w)) (operandField w) s) := by
  rw [exec_eq_runHandler, opcode_decode, operand_decode]

/-- Settles O4: the table by evaluation, and `exec` through it. -/
theorem dispatchTableSelectsHandler : Obligations.DispatchTableSelectsHandler :=
  ⟨⟨rfl, rfl, rfl, rfl, dispatch_unmapped⟩, exec_decode⟩

/-- Every operation code but ADD's, SUB's and JMP's has the no-op handler (R63). -/
theorem dispatch_eq_nop : ∀ c : Nibble, c ≠ 1 → c ≠ 2 → c ≠ 3 → dispatch c = .nop := by decide

/-- Settles O7: every word has a handler, and the no-op handler answers the state it is given. -/
theorem everyWordIsLegal : Obligations.EveryWordIsLegal := by
  refine ⟨fun w s => ⟨_, exec_decode w s⟩, fun w s hadd hsub hjmp => ?_⟩
  rw [exec_decode, dispatch_eq_nop _ hadd hsub hjmp]
  rfl

/-! ### The step completes -/

/-- Settles O49: the host's STEP always completes with `OK`, and the machine's step answers the same state. -/
theorem hostStepIsStep : Obligations.HostStepIsStep := by
  intro s
  obtain ⟨t, ht⟩ := hostStep_completes s
  exact ⟨t, step_of_transact_step ht, ht⟩

/-- Settles O24: every meaning runs a handler, and a step completes because the host's STEP does. -/
theorem nothingFaultsOrRefuses : Obligations.NothingFaultsOrRefuses := by
  refine ⟨fun i s => ⟨_, exec_eq_runHandler i s⟩, fun s => ?_⟩
  obtain ⟨t, hstep, -⟩ := hostStepIsStep s
  exact ⟨t, hstep⟩

/-! ### The guard, and RUNNING -/

/-- Settles O20: the guard on an 8-bit `PC`, and the step it halts. -/
theorem guardHaltsExactlyAt255 : Obligations.GuardHaltsExactlyAt255 :=
  ⟨fun s => boundaryGuard_iff s.pc, fun _ => step_halted⟩

/-- A step sets RUNNING before anything else, so it does not depend on what RUNNING was (R69, decision D4). -/
theorem step_setRunning (s : State) (v : Bool) : step (s.setRunning v) = step s := rfl

/-- Settles O43: STOP writes RUNNING alone, which the next step does not read. -/
theorem stopClearsRunningOnly : Obligations.StopClearsRunningOnly :=
  fun s => ⟨rfl, rfl, step_setRunning s false⟩

end Sys2Proof.Proofs.Encoding
end

section
/-!
No-operation (spec/40_noop.md): an instruction whose operation code has the no-op handler changes no state, and a step that
fetches it advances `PC` alone.
-/

namespace Sys2Proof.Proofs.Noop

open Sys2Proof Sys2Proof.Machine Sys2Proof.Safety Sys2Proof.Proofs.StatePieces

/-- An instruction with the no-op handler answers the state it is given, whatever its operand (R80). -/
theorem exec_of_dispatch_nop {i : Instr} (h : dispatch i.opcode = .nop) (s : State) : exec i s = .next s := by
  rw [exec_eq_runHandler, h]
  rfl

/-- The word of an operation code and an operand decodes to an instruction of that code (R60). -/
theorem opcode_decode_append (c k : Nibble) : (decode (c ++ k)).opcode = c := by
  obtain ⟨hopcode, -⟩ := Laws.EncodeFields.fields_append c k
  rw [opcode_decode, hopcode]

/-- A step that fetches a word with the no-op handler has the effect of its fetch alone: `PC` advances (R80). -/
theorem step_advancesPcOnly_of_dispatch_nop {c k : Nibble} {s : State} (h : dispatch c = .nop)
    (hfetch : Fetches s (c ++ k)) : ∃ t, step s = .next t ∧ AdvancesPcOnly s t := by
  obtain ⟨hpc, hword⟩ := hfetch
  have hstep : step s = .next ((s.setRunning true).setPc (s.pc + 1)) := by
    rw [step_fetched hpc, hword, opcode_decode_append, h]
    rfl
  exact ⟨_, hstep, rfl, ⟨rfl, rfl, rfl⟩, fun _ => rfl, fun _ => rfl⟩

/-- Operation codes 0 and 4 to 15 have the no-op handler (R63). -/
theorem dispatch_eq_nop_of_noopCode {c : Nibble} (h : c = 0 ∨ 4 ≤ c.toNat) : dispatch c = .nop := by
  obtain rfl | hunmapped := h
  · rfl
  · exact dispatch_unmapped c hunmapped

/-- Settles O9: each of the twelve codes has NOP's handler. -/
theorem unmappedCodesActAsNop : Obligations.UnmappedCodesActAsNop := by
  refine ⟨fun k s => ?_, fun c k s hc => ?_, fun c k s hc => step_advancesPcOnly_of_dispatch_nop (dispatch_unmapped c hc)⟩
  · refine ⟨?_, ?_, ?_, ?_, ?_, ?_, ?_, ?_, ?_, ?_, ?_, ?_⟩ <;> exact exec_of_dispatch_nop rfl s
  · have hword : dispatch (decode (c ++ k)).opcode = .nop := by rw [opcode_decode_append, dispatch_unmapped c hc]
    calc exec (decode (c ++ k)) s
      _ = .next s := exec_of_dispatch_nop hword s
      _ = exec (.nop k) s := (exec_of_dispatch_nop rfl s).symm

/-- Settles O29: the answered state is the state given. -/
theorem noopFrame : Obligations.NoopFrame := by
  intro i s t hcode h
  rw [exec_of_dispatch_nop (dispatch_eq_nop_of_noopCode hcode)] at h
  obtain rfl := Host.Outcome.next.inj h
  exact ⟨rfl, ⟨rfl, rfl, rfl⟩, rfl, fun _ => rfl, fun _ => rfl⟩

/-- Settles O8: the words `0000kkkk` are NOP's encodings, and NOP has the no-op handler. -/
theorem nopChangesNothing : Obligations.NopChangesNothing :=
  ⟨fun k => Encoding.decode_encode (.nop k), fun _ => exec_of_dispatch_nop rfl,
    fun _ _ => step_advancesPcOnly_of_dispatch_nop rfl⟩

end Sys2Proof.Proofs.Noop
end

section
/-!
Arithmetic (spec/41_arithmetic.md): ADD and SUB each write one unbounded result, the shared flag rule on that result, and
what both leave unchanged.
-/

namespace Sys2Proof.Proofs.Arithmetic

open Sys2Proof Sys2Proof.Machine Sys2Proof.Proofs.Encoding

/-! ### The result that ADD and SUB write -/

/-- ADD writes the unmasked sum (R91). -/
theorem exec_add (k : Nibble) (s : State) :
    exec (.add k) s = .next (writeResult ((s.acc.toNat : Int) + k.toNat) s) := rfl

/-- SUB writes the unmasked difference (R92). -/
theorem exec_sub (k : Nibble) (s : State) :
    exec (.sub k) s = .next (writeResult ((s.acc.toNat : Int) - k.toNat) s) := rfl

/-- ADD and SUB answer nothing but a written result. -/
theorem eq_writeResult_of_exec {k : Nibble} {s t : State} (h : exec (.add k) s = .next t ∨ exec (.sub k) s = .next t) :
    ∃ result, t = writeResult result s := by
  obtain hadd | hsub := h
  · exact ⟨_, Host.Outcome.next.inj (hadd.symm.trans (exec_add k s))⟩
  · exact ⟨_, Host.Outcome.next.inj (hsub.symm.trans (exec_sub k s))⟩

/-! ### The flag rule and the mask -/

/-- The carry is set exactly when the result leaves 0 to 15 (R90). -/
theorem carryOf_eq (result : Int) : carryOf result = decide (result > 15 ∨ result < 0) :=
  (Bool.decide_or _ _).symm

/-- The flags of a written result are those of the flag rule, whatever they were (R90). -/
theorem writeResult_flags (result : Int) (s : State) :
    ((writeResult result s).c = true ↔ result > 15 ∨ result < 0) ∧
    ((writeResult result s).z = true ↔ result % 16 = 0) := by
  rw [writeResult_eq, carryOf_eq]
  exact ⟨decide_eq_true_iff, decide_eq_true_iff⟩

/-- What a natural number writes: it borrows nothing, so the carry is overflow alone (R91). -/
theorem writeResult_natCast (n : Nat) (s : State) :
    writeResult n s =
      { s with acc := BitVec.ofNat 4 (n % 16), c := decide (n > 15), z := decide (n % 16 = 0) } := by
  have hacc : low4 n = BitVec.ofNat 4 (n % 16) := rfl
  have hcarry : carryOf n = decide (n > 15) := by
    rw [carryOf_eq, decide_eq_decide]
    omega
  have hzero : zeroOf n = decide (n % 16 = 0) := by
    rw [zeroOf, decide_eq_decide]
    omega
  rw [writeResult_eq, hacc, hcarry, hzero]

/-- The source's wrap of a negative result, by adding 16 before the mask, is the mask itself (R92). -/
theorem wrap_eq_emod (result : Int) :
    (if result < 0 then (result + 16) % 16 else result % 16) = result % 16 := by
  rw [Int.add_emod_right, ite_self]

/-! ### The statements -/

/-- Settles O10: each instruction writes its result, with the flags of that result. -/
theorem flagRuleOfAddAndSub : Obligations.FlagRuleOfAddAndSub :=
  ⟨fun k s => ⟨_, exec_add k s, writeResult_flags _ s⟩, fun k s => ⟨_, exec_sub k s, writeResult_flags _ s⟩⟩

/-- Settles O11: the sum is a natural number, so the flag rule needs no borrow. -/
theorem addWritesSumAndFlags : Obligations.AddWritesSumAndFlags := by
  refine ⟨fun k => decode_encode (.add k), fun k s => ?_⟩
  rw [exec_add, ← Int.natCast_add, writeResult_natCast]

/-- Settles O12: both branches of the wrap are the difference mod 16. -/
theorem subWritesDifferenceAndFlags : Obligations.SubWritesDifferenceAndFlags := by
  refine ⟨fun k => decode_encode (.sub k), fun k s => ?_⟩
  rw [exec_sub, writeResult_eq, carryOf_eq, wrap_eq_emod]
  rfl

/-- Settles O30: a written result changes `ACC`, `C` and `Z` alone. -/
theorem arithmeticFrame : Obligations.ArithmeticFrame := by
  intro k s t h
  obtain ⟨result, rfl⟩ := eq_writeResult_of_exec h
  exact ⟨rfl, rfl, fun _ => rfl, fun _ => rfl⟩

end Sys2Proof.Proofs.Arithmetic
end

section
/-!
Control transfer (spec/42_jump.md): JMP writes its operand to `PC` and nothing else, no other instruction writes `PC`, and a
JMP to its own address runs for ever.
-/

namespace Sys2Proof.Proofs.Jump

open Sys2Proof Sys2Proof.Machine Sys2Proof.Safety Sys2Proof.Proofs.MemoryAccess Sys2Proof.Proofs.Encoding

/-! ### One jump -/

/-- JMP writes its target to `PC` and nothing else (R100). -/
theorem exec_jmp (k : Nibble) (s : State) : exec (.jmp k) s = .next (s.setPc (jumpTarget k)) := rfl

/-- The target is the operand as an address, zero-extended (R61). -/
theorem jumpTarget_toNat (k : Nibble) : (jumpTarget k).toNat = k.toNat :=
  BitVec.toNat_setWidth_of_le (by decide)

/-- The words `0011kkkk` are JMP's encodings (R63). -/
theorem decode_jmp (k : Nibble) : decode (0x3#4 ++ k) = .jmp k := decode_encode (.jmp k)

/-- A step that fetches a JMP leads to its target, from whatever `PC` it began at (R67, R100). -/
theorem step_jmp {k : Nibble} {s : State} (hfetch : Fetches s (0x3#4 ++ k)) :
    step s = .next ((s.setRunning true).setPc (jumpTarget k)) := by
  obtain ⟨hpc, hword⟩ := hfetch
  rw [stepRunsDecodedInstruction s hpc, hword, decode_jmp]
  rfl

/-! ### A jump to its own address -/

/-- A step at a JMP to its own address returns to that address: only RUNNING is written (R100, decision D4). -/
theorem step_selfJump {k : Nibble} {s : State} (hpc : s.pc.toNat = k.toNat) (hword : s.im.read k.toNat = 0x3#4 ++ k) :
    step s = .next (s.setRunning true) := by
  have htarget : jumpTarget k = s.pc := BitVec.eq_of_toNat_eq ((jumpTarget_toNat k).trans hpc.symm)
  have hbelow : s.pc ≠ 255 := fun h => absurd (jumpTarget_toNat_le k) (by rw [htarget, h]; decide)
  rw [step_jmp ⟨hbelow, hpc ▸ hword⟩, htarget]
  rfl

/-! ### The statements -/

/-- Settles O17, by induction on the number of steps: the state after the first is again at the self-jump. -/
theorem selfJumpNeverHalts : Obligations.SelfJumpNeverHalts := by
  intro n
  induction n with
  | zero => exact fun k s hpc hword => run_succ_of_next (step_selfJump hpc hword)
  | succ n ih =>
    intro k s hpc hword
    rw [run_succ_of_next (step_selfJump hpc hword)]
    exact ih k (s.setRunning true) hpc hword

/-- Settles O16: the decoder, the meaning, one step, and for a self-jump either no step or O17. -/
theorem jumpSetsPcToOperand : Obligations.JumpSetsPcToOperand := by
  refine ⟨decode_jmp, fun k s => ?_, fun k s hfetch => ?_, fun n k s hpc hword => ?_⟩
  · rw [BitVec.ofNat_toNat]
    exact exec_jmp k s
  · exact ⟨_, step_jmp hfetch, jumpTarget_toNat k, ⟨rfl, rfl, rfl⟩, fun _ => rfl, fun _ => rfl⟩
  · cases n with
    | zero => exact ⟨s, rfl, rfl, ⟨rfl, rfl, rfl⟩, fun _ => rfl, fun _ => rfl⟩
    | succ n => exact ⟨_, selfJumpNeverHalts n k s hpc hword, rfl, ⟨rfl, rfl, rfl⟩, fun _ => rfl, fun _ => rfl⟩

/-- Settles O18, one case per instruction: every handler but JMP's answers a state with the same `PC`. -/
theorem onlyJumpWritesPc : Obligations.OnlyJumpWritesPc := by
  intro i s t h hpc
  rw [exec_eq_runHandler] at h
  obtain rfl := Host.Outcome.next.inj h
  cases i with
  | jmp k => exact ⟨k, rfl⟩
  | _ => exact absurd rfl hpc

/-- Settles O31: the answered state differs from the state given in `PC` alone. -/
theorem jumpFrame : Obligations.JumpFrame := by
  intro k s t h
  obtain rfl := Host.Outcome.next.inj ((exec_jmp k s).symm.trans h)
  exact ⟨⟨rfl, rfl, rfl⟩, rfl, fun _ => rfl, fun _ => rfl⟩

end Sys2Proof.Proofs.Jump
end

section
/-!
What the specification infers from the flag rule (spec/41_arithmetic.md): SUB compares, `Z` stands exactly over a zero
accumulator, and a subtraction is the addition of the complement but for the carry.
-/

namespace Sys2Proof.Proofs.ArithmeticInferences

open Sys2Proof Sys2Proof.Machine Sys2Proof.Proofs.StatePieces Sys2Proof.Proofs.Arithmetic

/-! ### The flag rule and the mask on 4-bit values -/

/-- A difference of 4-bit values leaves 0 to 15 only by borrowing (R92). -/
theorem carryOf_sub (a k : Nibble) : carryOf ((a.toNat : Int) - k.toNat) = decide (a.toNat < k.toNat) := by
  have ha := a.isLt
  rw [carryOf_eq, decide_eq_decide]
  omega

/-- A difference of 4-bit values is 0 mod 16 only when they are equal (R92). -/
theorem zeroOf_sub (a k : Nibble) : zeroOf ((a.toNat : Int) - k.toNat) = decide (a = k) := by
  have ha := a.isLt
  have hk := k.isLt
  rw [zeroOf, decide_eq_decide, ← BitVec.toNat_inj]
  omega

/-- The zero flag of a result is set exactly when its mask is 0 (R90). -/
theorem zeroOf_iff_low4_eq_zero (result : Int) : zeroOf result = true ↔ low4 result = 0 := by
  refine ⟨low4_eq_zero_of_zeroOf, fun hmask => decide_eq_true ?_⟩
  have hnat : (result % 16).toNat % 16 = 0 := congrArg BitVec.toNat hmask
  omega

/-- A written result leaves `Z` set exactly over a zero accumulator. -/
theorem writeResult_z_iff_acc_eq_zero (result : Int) (s : State) :
    (writeResult result s).z = true ↔ (writeResult result s).acc = 0 :=
  zeroOf_iff_low4_eq_zero result

/-- The complement `16 - k` of a nonzero operand is itself an operand, so it does not wrap (R93). -/
theorem complement_toNat {k : Nibble} (h : k ≠ 0) : (BitVec.ofNat 4 (16 - k.toNat)).toNat = 16 - k.toNat := by
  have hpos : 0 < k.toNat := Nat.pos_of_ne_zero fun h0 => h (BitVec.eq_of_toNat_eq h0)
  rw [BitVec.toNat_ofNat, Nat.mod_eq_of_lt (by omega)]

/-- The mask does not see 16 added to a result. -/
theorem low4_add_sixteen (result : Int) : low4 (result + 16) = low4 result := by
  rw [low4, low4, Int.add_emod_right]

/-- A difference of 4-bit values borrows exactly when 16 more does not overflow (R93). -/
theorem carryOf_sub_eq_not_add_sixteen (a k : Nibble) :
    carryOf ((a.toNat : Int) - k.toNat) = !carryOf ((a.toNat : Int) - k.toNat + 16) := by
  have ha := a.isLt
  have hk := k.isLt
  rw [carryOf_eq, carryOf_eq, ← decide_not, decide_eq_decide]
  omega

/-! ### The statements -/

/-- Settles O13: the flag rule on a difference of 4-bit values. -/
theorem subFlagsCompareAccWithOperand : Obligations.SubFlagsCompareAccWithOperand :=
  fun k s => ⟨_, exec_sub k s, carryOf_sub s.acc k, zeroOf_sub s.acc k⟩

/-- Settles O14: both instructions write one result, to which the flag rule and the mask apply. -/
theorem zeroFlagMeansZeroAcc : Obligations.ZeroFlagMeansZeroAcc :=
  ⟨fun k s => ⟨_, exec_add k s, writeResult_z_iff_acc_eq_zero _ s⟩,
    fun k s => ⟨_, exec_sub k s, writeResult_z_iff_acc_eq_zero _ s⟩⟩

/-- Settles O15: the sum with the complement is the difference plus 16, which the mask does not see and which turns a borrow
into no overflow. -/
theorem subIsAddOfComplementButForCarry : Obligations.SubIsAddOfComplementButForCarry := by
  intro k s hk
  have hsum : (s.acc.toNat : Int) + (BitVec.ofNat 4 (16 - k.toNat)).toNat = (s.acc.toNat : Int) - k.toNat + 16 := by
    rw [complement_toNat hk]
    omega
  have hadd := exec_add (BitVec.ofNat 4 (16 - k.toNat)) s
  rw [hsum] at hadd
  exact ⟨_, _, exec_sub k s, hadd, (low4_add_sixteen _).symm, carryOf_sub_eq_not_add_sixteen s.acc k⟩

end Sys2Proof.Proofs.ArithmeticInferences
end

section
/-!
Reset, the halt at address 255 and straight-line runs (spec/70_reset_and_hazards.md): what RESET leaves for the next step,
when a step ends halted, that the last word of instruction memory is never read, and where steps without a JMP lead.
-/

namespace Sys2Proof.Proofs.Hazards

open Sys2Proof Sys2Proof.Machine Sys2Proof.Proofs.StatePieces Sys2Proof.Proofs.MemoryAccess Sys2Proof.Proofs.Encoding

/-- Settles O2: a step after RESET begins at address 0, which the guard lets through (decision D3). -/
theorem resetClearsRegistersKeepsMemories : Obligations.ResetClearsRegistersKeepsMemories :=
  fun s => ⟨rfl, _, startStep_fetched (s := hostReset s) (by decide : (0 : Byte) ≠ 255)⟩

/-! ### Runs of steps -/

/-- A step always answers a next state (R113). -/
theorem step_completes (s : State) : ∃ t, step s = .next t := by
  obtain ⟨-, hsafe⟩ := nothingFaultsOrRefuses
  exact hsafe s

/-- A run goes on from the state its first `n` steps answer. -/
theorem run_add_of_next {n : Nat} (m : Nat) {s t : State} (h : core.run n s = .next t) :
    core.run (n + m) s = core.run m t := by
  induction n generalizing s with
  | zero => rw [Nat.zero_add, Host.Outcome.next.inj h]
  | succ n ih =>
    obtain ⟨u, hu⟩ := step_completes s
    rw [run_succ_of_next hu] at h
    rw [Nat.succ_add, run_succ_of_next hu, ih h]

/-! ### The halt at 255 -/

/-- Settles O21, by induction on the number of steps: each answers the state with RUNNING false, still at 255. -/
theorem haltedCoreStaysHalted : Obligations.HaltedCoreStaysHalted := by
  intro n
  induction n with
  | zero => exact fun s hpc => run_succ_of_next (step_halted hpc)
  | succ n ih =>
    intro s hpc
    rw [run_succ_of_next (step_halted hpc)]
    exact ih (s.setRunning false) hpc

/-- Settles O26: the guard clears RUNNING, and below 255 the step has set it and no handler writes it. -/
theorem stepHaltsOnlyAt255 : Obligations.StepHaltsOnlyAt255 := by
  intro s t hstep
  obtain ⟨hpc, rfl⟩ | ⟨hpc, h, k, rfl⟩ := step_cases_someHandler hstep
  · exact iff_of_true rfl hpc
  · obtain ⟨hrunning, -, -⟩ := runHandler_frame h k ((s.setRunning true).setPc (s.pc + 1))
    exact iff_of_false (fun hfalse => Bool.noConfusion (hrunning.symm.trans hfalse)) hpc

/-- No handler reads or writes instruction memory (R41). -/
theorem runHandler_setIm (h : Handler) (k : Nibble) (s : State) (m : Memory 8) :
    runHandler h k (s.setIm m) = (runHandler h k s).setIm m := by
  cases h <;> rfl

/-- Settles O22: the halted step fetches nothing, and any other reads the one word at its `PC`, below 255. -/
theorem lastWordIsNeverExecuted : Obligations.LastWordIsNeverExecuted := by
  intro s t m hagree hstep
  obtain ⟨hpc, rfl⟩ | ⟨hpc, rfl⟩ := step_cases hstep
  · exact step_halted (s := s.setIm m) hpc
  · have hword : m.read s.pc.toNat = s.im.read s.pc.toNat := hagree _ (by bv_omega)
    have hother := step_fetched (s := s.setIm m) hpc
    rw [State.setIm_im, State.setIm_pc, hword] at hother
    exact hother.trans (congrArg Host.Outcome.next (runHandler_setIm _ _ ((s.setRunning true).setPc (s.pc + 1)) m))

/-! ### Straight-line runs -/

/-- The table selects the jump handler for operation code 3 alone (R63). -/
theorem dispatch_eq_jmp_iff : ∀ c : Nibble, dispatch c = .jmp ↔ c = 3 := by decide

/-- Every handler but JMP's keeps `PC` (R101). -/
theorem runHandler_pc_of_ne_jmp {h : Handler} (hjmp : h ≠ .jmp) (k : Nibble) (s : State) :
    (runHandler h k s).pc = s.pc := by
  cases h with
  | nop | add | sub => rfl
  | jmp => exact absurd rfl hjmp

/-- Below 255 a step at a word that is no JMP leads to the next address (R58). -/
theorem step_pc_of_not_jmp {s t : State} (hpc : s.pc ≠ 255) (hcode : opcodeField (s.im.read s.pc.toNat) ≠ 3)
    (hstep : step s = .next t) : t.pc.toNat = s.pc.toNat + 1 := by
  obtain rfl := Host.Outcome.next.inj ((step_fetched hpc).symm.trans hstep)
  rw [opcode_decode, runHandler_pc_of_ne_jmp (mt (dispatch_eq_jmp_iff _).1 hcode)]
  exact toNat_add_one_of_ne hpc

/-- `n` steps over words that are no JMP lead `n` addresses on, up to 255 (R138). -/
theorem run_pc_of_no_jmp {n : Nat} {s : State} (hend : s.pc.toNat + n ≤ 255)
    (hcode : ∀ a, s.pc.toNat ≤ a → a < s.pc.toNat + n → opcodeField (s.im.read a) ≠ 3) :
    ∃ t, core.run n s = .next t ∧ t.pc.toNat = s.pc.toNat + n := by
  induction n generalizing s with
  | zero => exact ⟨s, rfl, rfl⟩
  | succ n ih =>
    obtain ⟨u, hu⟩ := step_completes s
    have hpc : s.pc ≠ 255 := by bv_omega
    have hnext : u.pc.toNat = s.pc.toNat + 1 := step_pc_of_not_jmp hpc (hcode _ (by omega) (by omega)) hu
    obtain ⟨him, -⟩ := step_keeps_memories hu
    obtain ⟨t, hrun, ht⟩ := ih (s := u) (by omega) fun a hlow hhigh => him ▸ hcode a (by omega) (by omega)
    exact ⟨t, (run_succ_of_next hu).trans hrun, by omega⟩

/-- From address 0, `n` steps over words that are no JMP lead to address `n`, up to 255 (R138). -/
theorem run_from_zero_pc_of_no_jmp {n : Nat} {s : State} (hn : n ≤ 255) (hpc : s.pc = 0)
    (hcode : ∀ a, a < n → opcodeField (s.im.read a) ≠ 3) : ∃ t, core.run n s = .next t ∧ t.pc.toNat = n := by
  have hzero : s.pc.toNat = 0 := congrArg BitVec.toNat hpc
  obtain ⟨t, hrun, ht⟩ := run_pc_of_no_jmp (n := n) (s := s) (by omega) fun a _ ha => hcode a (by omega)
  exact ⟨t, hrun, by omega⟩

/-- Settles O27: the run from address 0, and one halted step after it. -/
theorem straightLineAdvancesToHalt : Obligations.StraightLineAdvancesToHalt := by
  refine ⟨fun n s => run_from_zero_pc_of_no_jmp, fun s hpc hcode => ?_⟩
  obtain ⟨t, hrun, ht⟩ := run_from_zero_pc_of_no_jmp (Nat.le_refl 255) hpc hcode
  have hend : t.pc = 255 := BitVec.eq_of_toNat_eq ht
  exact ⟨_, (run_add_of_next 1 hrun).trans (haltedCoreStaysHalted 0 t hend), hend, rfl⟩

end Sys2Proof.Proofs.Hazards
end

section
/-!
What the host sees over several operations: a LOAD between two steps (spec/20_memory.md), data memory along every run
(spec/10_state.md R32), and the widths of its ports (spec/00_scope.md section 3).
-/

namespace Sys2Proof.Proofs.HostRuns

open Sys2Proof Sys2Proof.Machine Sys2Proof.Safety Sys2Proof.Proofs.HostTotality Sys2Proof.Proofs.StatePieces

/-! ### LOAD between two steps -/

/-- A LOAD leaves the state or replaces instruction memory alone (R44, R45). -/
theorem load_state_cases (bytes : List Byte) (s : State) :
    (load bytes s).1 = s ∨ (load bytes s).1 = s.setIm (Memory.ofWords 0 bytes) := by
  by_cases hlen : bytes.length ≤ 256
  · exact .inr (by rw [load_fits hlen])
  · exact .inl (by rw [load_exceeds (Nat.lt_of_not_le hlen)])

/-- Settles O37: LOAD replaces instruction memory at most, and the fetch reads what it put there (decision D5). -/
theorem loadKeepsRegistersAndFeedsNextStep : Obligations.LoadKeepsRegistersAndFeedsNextStep := by
  refine ⟨fun bytes s => ?_, fun bytes s hlen hpc => ?_⟩
  · obtain h | h := load_state_cases bytes s <;> rw [h] <;> exact ⟨rfl, ⟨rfl, rfl, rfl⟩, rfl, rfl⟩
  · have hfetch := startStep_fetched (s := s.setIm (Memory.ofWords 0 bytes)) hpc
    rw [State.setIm_im, State.setIm_pc, Memory.read_ofWords, if_pos (Nat.zero_le _), Nat.sub_zero] at hfetch
    rw [load_fits hlen]
    exact ⟨_, hfetch⟩

/-! ### Data memory along a run -/

/-- A run is its first operation and then a run of the rest. -/
theorem runOps_cons_cases {op : HostOp} {ops : List HostOp} {s u : State} {rs : List HostResult}
    (h : runOps (op :: ops) s = .next (u, rs)) :
    ∃ t r rs', transact op s = .next (t, r) ∧ runOps ops t = .next (u, rs') := by
  obtain ⟨t, r, hop⟩ := transact_completes op s
  obtain ⟨u', rs', hrest, -⟩ := hostRunsNeverStop ops t
  cases (runOps_cons_of_next hop hrest).symm.trans h
  exact ⟨t, r, rs', hop, hrest⟩

/-- What every host operation keeps, a run of them keeps: the invariant of the core. -/
theorem inv_runOps {ops : List HostOp} {s t : State} {rs : List HostResult} (inv : Inv s)
    (h : runOps ops s = .next (t, rs)) : Inv t := by
  induction ops generalizing s rs with
  | nil => cases h; exact inv
  | cons op ops ih =>
    obtain ⟨u, r, rs', hop, hrest⟩ := runOps_cons_cases h
    exact ih (hostOperationsKeepInv op s u r inv hop) hrest

/-- Settles O46: the invariant holds at reset and along every run, and it has data memory zero. -/
theorem dataMemoryIsAlwaysZero : Obligations.DataMemoryIsAlwaysZero := by
  intro ops t rs h
  obtain ⟨-, -, hzero, -⟩ := inv_runOps invHoldsAtReset h
  exact hzero

/-! ### The port widths -/

/-- What fits in `b` bits fits in any more of them. -/
theorem lt_two_pow_add {n b : Nat} (extra : Nat) (h : n < 2 ^ b) : n < 2 ^ (b + extra) :=
  Nat.lt_of_lt_of_le h (Nat.pow_le_pow_right Nat.two_pos (Nat.le_add_right b extra))

/-- Settles O51: each width is its lower bound of 9 or 1 bits and a free number more. -/
theorem portsPresentEveryCase : Obligations.PortsPresentEveryCase := by
  refine ⟨fun address length haddress hlength => ?_, fun n hn => ?_⟩
  · have haddr : address < 2 ^ Config.inspectAddrBits := lt_two_pow_add (b := 9) _ (Nat.lt_succ_of_le haddress)
    have hlen : length < 2 ^ Config.inspectLenBits := lt_two_pow_add (b := 1) _ (Nat.lt_succ_of_le hlength)
    rw [inspectPresentable, decide_eq_true haddr, decide_eq_true hlen, Bool.and_self]
  · exact decide_eq_true (lt_two_pow_add (b := 9) _ (Nat.lt_succ_of_le hn))

end Sys2Proof.Proofs.HostRuns
end

section
/-!
The step as a sequence of phases (spec/30_encoding.md R70, decision D1): GUARD, FETCH, DECODE and EXECUTE end with the state
of the atomic step.
-/

namespace Sys2Proof.Proofs.Phases

open Sys2Proof Sys2Proof.Machine Sys2Proof.Proofs.StatePieces Sys2Proof.Proofs.Encoding

/-- GUARD at 255 halts the machine and goes to IDLE (R68). -/
theorem advancePhase_guard_halted {s : State} (h : s.pc = 255) :
    advancePhase .guard s = (.idle .ok, s.setRunning false) :=
  if_pos ((boundaryGuard_iff s.pc).2 h)

/-- GUARD below 255 sets RUNNING and goes to FETCH (R69). -/
theorem advancePhase_guard_running {s : State} (h : s.pc ≠ 255) :
    advancePhase .guard s = (.fetch, s.setRunning true) :=
  if_neg (mt (boundaryGuard_iff s.pc).1 h)

/-- FETCH latches the word at `PC`, advances `PC` and goes to DECODE (R43). -/
theorem advancePhase_fetch (s : State) :
    advancePhase .fetch s = (.decode (s.im.read s.pc.toNat), s.setPc (s.pc + 1)) := by
  simp only [advancePhase, fetch_eq]

/-- Phases go on from what the first one answers. -/
theorem runPhases_succ_of_eq {n : Nat} {p q : Phase} {s t : State} (h : advancePhase p s = (q, t)) :
    runPhases (n + 1) p s = runPhases n q t := by
  rw [runPhases, h]

/-- DECODE and EXECUTE, which cannot fail, run the handler of the latched word and go to IDLE (R71). -/
theorem runPhases_decode (w : Byte) (s : State) :
    runPhases 2 (.decode w) s = (.idle .ok, runHandler (dispatch (opcodeField w)) (operandField w) s) := rfl

/-- Settles O50: GUARD alone at 255, after which IDLE changes nothing, and below it the four phases in turn. -/
theorem phasesRefineStep : Obligations.PhasesRefineStep := by
  intro s t hstep
  obtain ⟨hpc, rfl⟩ | ⟨hpc, rfl⟩ := step_cases hstep
  · exact runPhases_succ_of_eq (advancePhase_guard_halted hpc)
  · rw [runPhases_succ_of_eq (advancePhase_guard_running hpc), runPhases_succ_of_eq (advancePhase_fetch _),
      runPhases_decode, opcode_decode, operand_decode]
    rfl

end Sys2Proof.Proofs.Phases
end

section
/-!
Assembly statements (spec/30_encoding.md R66, decision D11): the assembler accepts the statements R66 allows and no
others, and it undoes the disassembler.
-/

namespace Sys2Proof.Proofs.Assembler

open Sys2Proof Sys2Proof.Machine Sys2Proof.Proofs.Encoding

/-! ### What the assembler accepts -/

/-- A checked value has a word exactly when the check holds and the value has one. -/
theorem exists_ok_ite_iff {ε α : Type} {p : Prop} [Decidable p] {x : Except ε α} {e : ε} :
    (∃ w, (if p then x else .error e) = .ok w) ↔ p ∧ ∃ w, x = .ok w := by
  by_cases hp : p
  · rw [if_pos hp, and_iff_right hp]
  · simp [hp]

/-- An operation code and an operand have a word exactly when the operand is in 0 to 15. -/
theorem wordOf_ok_iff (c k : Nat) : (∃ w, wordOf c k = .ok w) ↔ k ≤ 15 :=
  exists_ok_ite_iff.trans (and_iff_left ⟨_, rfl⟩)

/-- `JMP` to a target that names an address checks the address. -/
theorem assemble_jmp_of_resolve {symbols : Symbols} {t : Target} {a : Nat} (h : t.resolve symbols = some a) :
    assemble symbols (.jmp t) = if a ≤ 15 then wordOf 3 a else .error (.targetOutOfRange a) := by
  cases t <;> simp only [assemble, h]

/-- `JMP` to a target that names no address, an undefined label, is refused. -/
theorem assemble_jmp_of_unresolved {symbols : Symbols} {t : Target} (h : t.resolve symbols = none) :
    ∃ e, assemble symbols (.jmp t) = .error e := by
  cases t with
  | address a => cases h
  | label name => exact ⟨.undefinedLabel name, by simp only [assemble, h]⟩

/-- `JMP` has a word exactly when its target names an address in 0 to 15. -/
theorem assemble_jmp_ok_iff (symbols : Symbols) (t : Target) :
    (∃ w, assemble symbols (.jmp t) = .ok w) ↔ ∃ a, t.resolve symbols = some a ∧ a ≤ 15 := by
  cases h : t.resolve symbols with
  | none =>
    obtain ⟨e, he⟩ := assemble_jmp_of_unresolved h
    simp [he]
  | some a => simp [assemble_jmp_of_resolve h, exists_ok_ite_iff, wordOf_ok_iff]

/-- `XNOP` has a word exactly when its code is in 4 to 15 and its operand in 0 to 15. -/
theorem assemble_xnop_ok_iff (symbols : Symbols) (c k : Nat) :
    (∃ w, assemble symbols (.xnop c k) = .ok w) ↔ (4 ≤ c ∧ c ≤ 15) ∧ k ≤ 15 :=
  exists_ok_ite_iff.trans (and_congr_right' (wordOf_ok_iff c k))

/-- R66 allows a `JMP` exactly when its target names an address in 0 to 15. -/
theorem wellFormed_jmp_iff (symbols : Symbols) (t : Target) :
    (Stmt.jmp t).wellFormed symbols = true ↔ ∃ a, t.resolve symbols = some a ∧ a ≤ 15 := by
  cases h : t.resolve symbols with
  | none => simp [Stmt.wellFormed, h]
  | some a => simp [Stmt.wellFormed, h]

/-- Settles O52, one case per form of statement: each check of the assembler is one of R66's. -/
theorem assemblerAcceptsWellFormedOnly : Obligations.AssemblerAcceptsWellFormedOnly := by
  intro symbols st
  cases st with
  | nop => exact iff_of_true ⟨0, rfl⟩ rfl
  | nopImm k | add k | sub k => exact (wordOf_ok_iff _ k).trans decide_eq_true_iff.symm
  | jmp t => exact (assemble_jmp_ok_iff symbols t).trans (wellFormed_jmp_iff symbols t).symm
  | xnop c k =>
    rw [assemble_xnop_ok_iff]
    simp [Stmt.wellFormed]
  | word w => exact (exists_ok_ite_iff.trans (and_iff_left ⟨_, rfl⟩)).trans decide_eq_true_iff.symm

/-! ### Assembling a disassembly -/

/-- All the disassembler can answer, by the operation code of the word. -/
theorem disassemble_cases (w : Byte) :
    ((opcodeField w).toNat = 0 ∧ operandField w = 0 ∧ disassemble w = .nop) ∨
    ((opcodeField w).toNat = 0 ∧ disassemble w = .nopImm (operandField w).toNat) ∨
    ((opcodeField w).toNat = 1 ∧ disassemble w = .add (operandField w).toNat) ∨
    ((opcodeField w).toNat = 2 ∧ disassemble w = .sub (operandField w).toNat) ∨
    ((opcodeField w).toNat = 3 ∧ disassemble w = .jmp (.address (operandField w).toNat)) ∨
    (4 ≤ (opcodeField w).toNat ∧ disassemble w = .xnop (opcodeField w).toNat (operandField w).toNat) := by
  unfold disassemble
  split
  · next hcode =>
    split
    · next hoperand => exact .inl ⟨hcode, hoperand, rfl⟩
    · exact .inr (.inl ⟨hcode, rfl⟩)
  · next hcode => exact .inr (.inr (.inl ⟨hcode, rfl⟩))
  · next hcode => exact .inr (.inr (.inr (.inl ⟨hcode, rfl⟩)))
  · next hcode => exact .inr (.inr (.inr (.inr (.inl ⟨hcode, rfl⟩))))
  · next h0 h1 h2 h3 =>
    have hne : (opcodeField w).toNat ≠ 0 ∧ (opcodeField w).toNat ≠ 1 ∧ (opcodeField w).toNat ≠ 2 ∧
      (opcodeField w).toNat ≠ 3 := ⟨h0, h1, h2, h3⟩
    exact .inr (.inr (.inr (.inr (.inr ⟨by omega, rfl⟩))))

/-- A word is the word of its own two fields (R60). -/
theorem wordOf_fields (w : Byte) : wordOf (opcodeField w).toNat (operandField w).toNat = .ok w := by
  have hk : (operandField w).toNat ≤ 15 := Nat.le_of_lt_succ (operandField w).isLt
  rw [wordOf, if_pos hk, opcodeField_toNat, operandField_toNat, Nat.div_add_mod, BitVec.ofNat_toNat, BitVec.setWidth_eq]

/-- The disassembly of a word stands for the word of its two fields, in any table of labels. -/
theorem assemble_disassemble (symbols : Symbols) (w : Byte) :
    assemble symbols (disassemble w) = wordOf (opcodeField w).toNat (operandField w).toNat := by
  have hc : (opcodeField w).toNat ≤ 15 := Nat.le_of_lt_succ (opcodeField w).isLt
  have hk : (operandField w).toNat ≤ 15 := Nat.le_of_lt_succ (operandField w).isLt
  obtain ⟨hcode, hoperand, h⟩ | ⟨hcode, h⟩ | ⟨hcode, h⟩ | ⟨hcode, h⟩ | ⟨hcode, h⟩ | ⟨hcode, h⟩ := disassemble_cases w
  · rw [h, hcode, hoperand]; rfl
  · rw [h, hcode]; rfl
  · rw [h, hcode]; rfl
  · rw [h, hcode]; rfl
  · rw [h, hcode]; exact if_pos hk
  · rw [h]; exact if_pos ⟨hcode, hc⟩

/-- Settles O53: a disassembly stands for the word's own fields, and none of its six forms is `.word`. -/
theorem disassemblyAssemblesBack : Obligations.DisassemblyAssemblesBack := by
  refine fun symbols w => ⟨(assemble_disassemble symbols w).trans (wordOf_fields w), fun n hword => ?_⟩
  obtain ⟨-, -, h⟩ | ⟨-, h⟩ | ⟨-, h⟩ | ⟨-, h⟩ | ⟨-, h⟩ | ⟨-, h⟩ := disassemble_cases w <;> cases h.symm.trans hword

end Sys2Proof.Proofs.Assembler
end
